-- ==== Sys2Proof/Syntax.lean ====
section
/-! DEFINITION. The instructions of the block: one constructor per row of spec/opcode_table.json (R52), carrying what
the command word carries (R51, R54). The 64-bit operands are not part of a command word: they are the registers
`x[0]`, `x[1]`, `x[2]` of the command port (R20, R53). -/

namespace Sys2Proof

/-- A command of the block (R52). -/
inductive Instr where
  /-- `CFG min, max, w`: configure from a range and a field width (R67). -/
  | cfg
  /-- `CFGP min, max, p`: configure from a range and a precision (R73). -/
  | cfgp
  /-- `ENC v`: encode a value (R81). -/
  | enc
  /-- `DEC n, field`: decode a field of `len` bytes (R91); `len` is `IMM8` (R54). -/
  | dec (len : BitVec 8)
  /-- `RDCSR idx`: read configuration register `idx` (R101); `idx` is `IMM8` (R54). -/
  | rdcsr (idx : BitVec 8)
deriving DecidableEq, Repr

end Sys2Proof
end

