-- ==== Sys2Proof/Decode.lean ====
section
/-! DEFINITION. The command word: its fields (R51), the decoder, total on every 32-bit word and rejecting by name
(R55), and the encoder (R65). -/

namespace Sys2Proof

/-- Why a command word is illegal (R55); each ends the command with `IllegalCommand`. -/
inductive Illegal where
  /-- R55 (1): `OP` is 0x0 or 0x6 to 0xF. -/
  | reservedOp
  /-- R55 (2): `RSV0` is not zero. -/
  | rsv0NotZero
  /-- R55 (2): `RSV1` is not zero. -/
  | rsv1NotZero
  /-- R55 (3): `IMM8` is not zero in `CFG`, `CFGP` or `ENC`. -/
  | immNotZero
  /-- R55 (4): `RDCSR` of an index above 0x08. -/
  | csrIndexUndefined
deriving DecidableEq, Repr

/-- `OP`, bits 3:0 (R51). -/
def opField (w : BitVec 32) : BitVec 4 := w.extractLsb' 0 4

/-- `RSV0`, bits 7:4 (R51). -/
def rsv0Field (w : BitVec 32) : BitVec 4 := w.extractLsb' 4 4

/-- `IMM8`, bits 15:8 (R51, R54). -/
def immField (w : BitVec 32) : BitVec 8 := w.extractLsb' 8 8

/-- `RSV1`, bits 31:16 (R51). -/
def rsv1Field (w : BitVec 32) : BitVec 16 := w.extractLsb' 16 16

/-- The operation of a word whose reserved fields are zero, from `OP` and `IMM8` (R52, R55). -/
def decodeOp (op : BitVec 4) (imm : BitVec 8) : Except Illegal Instr :=
  match op.toNat with
  | 1 => if imm = 0#8 then .ok .cfg else .error .immNotZero
  | 2 => if imm = 0#8 then .ok .cfgp else .error .immNotZero
  | 3 => if imm = 0#8 then .ok .enc else .error .immNotZero
  | 4 => .ok (.dec imm)
  | 5 => if imm.toNat ≤ 8 then .ok (.rdcsr imm) else .error .csrIndexUndefined
  | _ => .error .reservedOp

/-- The command a word stands for, or why it is illegal (R51, R52, R55). -/
def decode (w : BitVec 32) : Except Illegal Instr :=
  if rsv0Field w ≠ 0#4 then .error .rsv0NotZero
  else if rsv1Field w ≠ 0#16 then .error .rsv1NotZero
  else decodeOp (opField w) (immField w)

/-- A command word from its fields (R51): `RSV1`, `IMM8`, `RSV0`, `OP` from bit 31 down. -/
def packCommand (op : BitVec 4) (imm : BitVec 8) : BitVec 32 := 0#16 ++ imm ++ 0#4 ++ op

/-- The command word of an instruction (R52, R65). -/
def encode : Instr → BitVec 32
  | .cfg => packCommand 0x1#4 0#8
  | .cfgp => packCommand 0x2#4 0#8
  | .enc => packCommand 0x3#4 0#8
  | .dec len => packCommand 0x4#4 len
  | .rdcsr idx => packCommand 0x5#4 idx

/-- The 32-bit word of an opcode-table word of `nbits` bits, every bit above them zero. The block takes `CMD` whole,
as one 32-bit value (R20, R50): there are no bytes to order. -/
def tableCommand (nbits w : Nat) : BitVec 32 := BitVec.ofNat 32 (w % 2 ^ nbits)

/-- The instruction the decoder reads from an opcode-table word (log 16). -/
def decodeTableWord (nbits w : Nat) : Option Instr := (decode (tableCommand nbits w)).toOption

end Sys2Proof
end

