-- ==== Sys2Proof/Word.lean ====
section
/-! DEFINITION. The word widths of the block (spec/10_state.md R20, R21) and its two numeric data types: the
binary64 datum (spec/00_scope.md R10) and the pattern of a NaN. Types only: every function on them stands in
Sys2Proof/Machine/Float.lean. -/

namespace Sys2Proof

/-- One byte of an encoded field (R8). -/
abbrev Byte := BitVec 8

/-- The command word `CMD` (R20, R51). -/
abbrev CmdWord := BitVec 32

/-- An operand register `x[i]`, `RDATA`, or a stored 64-bit pattern (R20, R21, R22). -/
abbrev Word := BitVec 64

/-- An IEEE 754 binary64 datum (R10). A finite datum is its sign and its magnitude in units of 2^-1074, the
spacing of the subnormals: every finite binary64 value is a whole number of these units, so exact sums, products
and quotients are exact integer and rational arithmetic. A NaN carries no sign or payload: no rule lets arithmetic
read them (R11), and a NaN gets a pattern only when one is stored or returned. -/
inductive F64 where
  /-- Any NaN. -/
  | nan
  /-- An infinity; `neg` is its sign. -/
  | inf (neg : Bool)
  /-- A zero or a nonzero finite value: sign and magnitude in units of 2^-1074. -/
  | fin (neg : Bool) (mag : Nat)
deriving DecidableEq, Repr, Inhabited

/-- A NaN bit pattern (R10): a sign and a nonzero 52-bit fraction, held as the fraction less one, so that this type
has exactly one element for each NaN pattern. -/
structure NanPattern where
  /-- Bit 63. -/
  neg : Bool
  /-- Bits 51:0, less one. -/
  fractionPred : Fin 4503599627370495
deriving DecidableEq, Repr, Inhabited

end Sys2Proof
end

