-- ==== Sys2Proof/Config.lean ====
section
/-! DEFINITION. The parameters of the block that the spec leaves OPEN (R6), each an opaque constant: nothing can
evaluate it, and a theorem that mentions it holds for every value it could have. `LATENCY` is not here, because no
rule depends on it (R129), and `NCTX = 1` is the shape of State (R119). -/

namespace Sys2Proof

/-- DEDUCED, logs 1 and 2. The parameter `LN` (R6, R14, D10) at a finite positive argument other than 1.0 and 2.0, by
the argument's bit pattern: sign, biased exponent below 1033 and fraction of the result. Free but for the limit that
rule R68 puts on it, a magnitude below 2^10. -/
opaque Config.lnValue : BitVec 64 → Bool × Fin 1033 × BitVec 52

/-- DEDUCED, logs 1 and 2. `LN2 = LN(2.0)` (R14): the fraction bits of a free value in [0.5, 1). -/
opaque Config.ln2Fraction : BitVec 52

/-- The draw `nanDraw` (R6, R11, D18), log 3: the pattern of the n-th NaN that the block stores or returns. -/
opaque Config.nanDraw : Nat → NanPattern

/-- The parameter `DECODE_NAN` (R6, R95, D17), log 4. -/
opaque Config.decodeNan : NanPattern

/-- DESIGN CHOICE, log 5. What `POW2` gives for a finite argument that is not an integer, by sign and magnitude: rule
R15 gives no value, and no call site passes one. A pattern. -/
opaque Config.pow2NonInteger : Bool → Nat → BitVec 64

end Sys2Proof
end

