-- ==== Sys2Proof/Machine/Float.lean ====
section
/-! DEFINITION. The numeric primitives of spec/00_scope.md section 5 (R10, R11, R13 to R16, R18), on binary64 data held
as a sign and a magnitude in units of 2^-1074 (log 17). The comparisons of R12 stand in Machine/Flags.lean. -/

namespace Sys2Proof

/-- The magnitude of 1.0: 2^1074 units of 2^-1074. Irreducible so that elaboration never tries to write the number out;
the kernel evaluates it. -/
@[irreducible] def F64.unit : Nat := 2 ^ 1074

/-- The magnitude of 2^1024, the first that overflows. -/
@[irreducible] def F64.limit : Nat := 2 ^ 2098

/-- The datum of an unsigned integer that binary64 holds exactly. -/
def F64.ofNat (n : Nat) : F64 := .fin false (n * F64.unit)

/-- The datum with sign `neg`, biased exponent `e` (below 2047) and fraction `f` (R10). -/
def F64.ofFields (neg : Bool) (e f : Nat) : F64 :=
  if e = 0 then .fin neg f else .fin neg ((2 ^ 52 + f) * 2 ^ (e - 1))

/-- `asF64(b)`, the datum with pattern `b` (R10): sign bit 63, exponent bits 62:52, fraction bits 51:0. -/
def asF64 (b : BitVec 64) : F64 :=
  let neg := b.getLsbD 63
  let e := (b.extractLsb' 52 11).toNat
  let f := (b.extractLsb' 0 52).toNat
  if e = 2047 then (if f = 0 then .inf neg else .nan) else F64.ofFields neg e f

/-- The exponent and fraction bits 62:0 of a finite magnitude (R10), as one number. -/
def magBits (m : Nat) : Nat :=
  if m < 2 ^ 52 then m else (m.log2 - 52) * 2 ^ 52 + m / 2 ^ (m.log2 - 52)

/-- The pattern of a NaN (R10). -/
def NanPattern.bits (p : NanPattern) : BitVec 64 :=
  (if p.neg then 1#1 else 0#1) ++ 0x7FF#11 ++ BitVec.ofNat 52 (p.fractionPred.val + 1)

/-- `bitsOf(f)`, the pattern of a datum (R10); a NaN, whose pattern arithmetic leaves open (R11), gets the one given. -/
def bitsOf (drawn : NanPattern) : F64 → BitVec 64
  | .nan => drawn.bits
  | .inf neg => if neg then 0xFFF0000000000000#64 else 0x7FF0000000000000#64
  | .fin neg m => BitVec.ofNat 64 ((if neg then 2 ^ 63 else 0) + magBits m)

/-- The magnitude nearest to the exact quotient `num / den`, ties to the even significand (R11): the quotient is cut
to a multiple of its unit in the last place `2^k` and the remainder decides. -/
def roundMag (num den : Nat) : Nat :=
  let k := (num / den).log2 - 52
  let u := den * 2 ^ k
  let q := num / u
  let r := num % u
  if u < 2 * r ∨ (2 * r = u ∧ q % 2 = 1) then (q + 1) * 2 ^ k else q * 2 ^ k

/-- The exact value `±num / den` rounded once to binary64; a rounded magnitude of 2^1024 or more is an infinity (R11). -/
def roundF64 (neg : Bool) (num den : Nat) : F64 :=
  let m := roundMag num den
  if F64.limit ≤ m then .inf neg else .fin neg m

/-- The signed value of a finite datum, in units of 2^-1074. -/
def signedMag (neg : Bool) (m : Nat) : Int := if neg then -(m : Int) else m

/-- The datum with the sign reversed. -/
def fneg : F64 → F64
  | .nan => .nan
  | .inf neg => .inf (!neg)
  | .fin neg m => .fin (!neg) m

/-- `fadd` (R11). An exact zero sum is `+0.0` unless both operands are negative. -/
def fadd : F64 → F64 → F64
  | .nan, _ => .nan
  | .inf _, .nan => .nan
  | .inf s, .inf t => if s = t then .inf s else .nan
  | .inf s, .fin _ _ => .inf s
  | .fin _ _, .nan => .nan
  | .fin _ _, .inf t => .inf t
  | .fin s m, .fin t n =>
    let z := signedMag s m + signedMag t n
    if z = 0 then .fin (s && t) 0 else roundF64 (decide (z < 0)) z.natAbs 1

/-- `fsub` (R11): the sum with the second operand's sign reversed. -/
def fsub (x y : F64) : F64 := fadd x (fneg y)

/-- `fmul` (R11). -/
def fmul : F64 → F64 → F64
  | .nan, _ => .nan
  | .inf _, .nan => .nan
  | .inf s, .inf t => .inf (s ^^ t)
  | .inf s, .fin t n => if n = 0 then .nan else .inf (s ^^ t)
  | .fin _ _, .nan => .nan
  | .fin s m, .inf t => if m = 0 then .nan else .inf (s ^^ t)
  | .fin s m, .fin t n => roundF64 (s ^^ t) (m * n) F64.unit

/-- `fdiv` (R11). -/
def fdiv : F64 → F64 → F64
  | .nan, _ => .nan
  | .inf _, .nan => .nan
  | .inf _, .inf _ => .nan
  | .inf s, .fin t _ => .inf (s ^^ t)
  | .fin _ _, .nan => .nan
  | .fin s _, .inf t => .fin (s ^^ t) 0
  | .fin s m, .fin t n =>
    if n = 0 then (if m = 0 then .nan else .inf (s ^^ t))
    else roundF64 (s ^^ t) (m * F64.unit) n

/-- The whole number of ones in a magnitude, rounded down. -/
def wholeDown (m : Nat) : Nat := m / F64.unit

/-- The whole number of ones in a magnitude, rounded up. -/
def wholeUp (m : Nat) : Nat := (m + (F64.unit - 1)) / F64.unit

/-- `floor64` (R13): toward minus infinity; the sign is kept, so `-0.0` stays `-0.0`. -/
def floor64 : F64 → F64
  | .nan => .nan
  | .inf neg => .inf neg
  | .fin neg m => .fin neg ((if neg then wholeUp m else wholeDown m) * F64.unit)

/-- `ceil64` (R13): toward plus infinity; the sign is kept, so a value in (-1, 0) gives `-0.0`. -/
def ceil64 : F64 → F64
  | .nan => .nan
  | .inf neg => .inf neg
  | .fin neg m => .fin neg ((if neg then wholeDown m else wholeUp m) * F64.unit)

/-- DEDUCED, logs 1 and 2: a free value of magnitude below 2^10. -/
def lnFree (m : Nat) : F64 :=
  let v := Config.lnValue (BitVec.ofNat 64 (magBits m))
  F64.ofFields v.1 v.2.1.val v.2.2.toNat

/-- DEDUCED, logs 1 and 2: `LN2 = LN(2.0)` (R14), a free value in [0.5, 1): exponent field 1022. -/
def ln2 : F64 := .fin false ((2 ^ 52 + Config.ln2Fraction.toNat) * 2 ^ 1021)

/-- `LN(x)` (R14): the special values every model must respect, and otherwise the parameter. -/
def LN : F64 → F64
  | .nan => .nan
  | .inf neg => if neg then .nan else .inf false
  | .fin neg m =>
    if m = 0 then .inf true
    else if neg then .nan
    else if m = F64.unit then .fin false 0
    else if m = 2 * F64.unit then ln2
    else lnFree m

/-- `LOG2(x)` (R14): the rounded quotient `LN(x) / LN(2.0)`, not the exact binary logarithm. -/
def LOG2 (x : F64) : F64 := fdiv (LN x) (LN (F64.ofNat 2))

/-- `2^k` for the integer `k = ±n` (R15 (4)). -/
def pow2Int (neg : Bool) (n : Nat) : F64 :=
  if neg then (if n ≤ 1074 then .fin false (2 ^ (1074 - n)) else .fin false 0)
  else if n ≤ 1023 then .fin false (2 ^ (1074 + n)) else .inf false

/-- `POW2(y)` (R15). -/
def POW2 : F64 → F64
  | .nan => .nan
  | .inf neg => if neg then .fin false 0 else .inf false
  | .fin neg m =>
    if m % F64.unit = 0 then pow2Int neg (m / F64.unit) else asF64 (Config.pow2NonInteger neg m)

/-- `U64ToF64(n)` (R16). -/
def u64ToF64 (n : Nat) : F64 := roundF64 false (n * F64.unit) 1

/-- The integer `k` with `0 ≤ k < 2^64` that a datum is, `-0.0` being 0; nothing else converts (R18). -/
def toU64 : F64 → Option Nat
  | .nan => none
  | .inf _ => none
  | .fin neg m =>
    if (neg = true ∧ m ≠ 0) ∨ 2 ^ 64 * F64.unit ≤ m ∨ m % F64.unit ≠ 0 then none else some (m / F64.unit)

end Sys2Proof
end

