-- ==== Sys2Proof/Machine/Flags.lean ====
section
/-! DEFINITION. The block has no flags, condition codes or predicates, and the IEEE exception flags are neither kept nor
visible (R33): no instruction computes one. What it decides on are the ordered comparisons and class tests of a datum
(R10, R12), and they stand here. -/

namespace Sys2Proof

/-- `isNaN(f)` (R10). -/
def isNaN : F64 → Bool
  | .nan => true
  | .inf _ => false
  | .fin _ _ => false

/-- `isInf(f)` (R10). -/
def isInf : F64 → Bool
  | .nan => false
  | .inf _ => true
  | .fin _ _ => false

/-- `flt(x, y)` (R12): false on a NaN; the two zeros compare equal. -/
def flt : F64 → F64 → Bool
  | .nan, _ => false
  | .inf _, .nan => false
  | .inf s, .inf t => s && !t
  | .inf s, .fin _ _ => s
  | .fin _ _, .nan => false
  | .fin _ _, .inf t => !t
  | .fin s m, .fin t n => decide (signedMag s m < signedMag t n)

/-- `fgt(x, y)` (R12). -/
def fgt (x y : F64) : Bool := flt y x

/-- `fle(x, y)` (R12): false on a NaN. -/
def fle (x y : F64) : Bool := !isNaN x && !isNaN y && !flt y x

/-- `fge(x, y)` (R12). -/
def fge (x y : F64) : Bool := fle y x

/-- `feq(x, y)` (R12): false on a NaN. -/
def feq (x y : F64) : Bool := fle x y && fle y x

end Sys2Proof
end

