-- ==== Sys2Proof/Machine/State.lean ====
section
/-! DEFINITION. The state of the block as plain data (spec/10_state.md): the configuration registers, the command
port, the responses delivered, the reset input, and the model's own fields (the host's moves to come, the count of
NaN draws). The block has no program counter, flags, memory, modes or interrupt state (R32, R33, R34, R38, R115,
R117). -/

namespace Sys2Proof.Machine

/-- The legal field widths in bytes (R6 `W_SET`, R25). -/
inductive Width where
  | w1
  | w2
  | w4
  | w8
deriving DecidableEq, Repr

/-- The status of a response (R58). -/
inductive Status where
  | ok
  | invalidFieldWidth
  | precisionUnrepresentable
  | outOfRange
  | lengthMismatch
  | decodedOutOfRange
  | notConfigured
  | codeUnrepresentable
  | illegalCommand
deriving DecidableEq, Repr

/-- The nine configuration registers, by name (R22). -/
inductive Csr where
  | valid
  | a
  | b
  | fieldWidth
  | domainBits
  | codeBits
  | scaleFwd
  | scaleRev
  | zeroOffset
deriving DecidableEq, Repr

/-- The eight configuration registers that hold a value once a configuration exists (R19, R22). They change only as a
group (R31). -/
structure Codec where
  /-- `A`: the pattern of the range's lower bound, as given (R24). -/
  a : Word
  /-- `B`: the pattern of the range's upper bound, as given (R24). -/
  b : Word
  /-- `FIELD_WIDTH` (R25). -/
  fieldWidth : Width
  /-- `DOMAIN_BITS`: an f64 pattern (R26, D32). -/
  domainBits : Word
  /-- `CODE_BITS`: an unsigned integer (R27, D33). -/
  codeBits : Nat
  /-- `SCALE_FWD`: an f64 pattern (R28). -/
  scaleFwd : Word
  /-- `SCALE_REV`: an f64 pattern (R29). -/
  scaleRev : Word
  /-- `ZERO_OFFSET`: an f64 pattern (R30). -/
  zeroOffset : Word
deriving DecidableEq, Repr

/-- What the host presents at the command port: the command word and the three operand registers (R20, R50). -/
structure Command where
  /-- `CMD`. -/
  cmd : CmdWord
  /-- `x[0]`. -/
  x0 : Word
  /-- `x[1]`. -/
  x1 : Word
  /-- `x[2]`. -/
  x2 : Word
deriving DecidableEq, Repr

/-- A response (R21, R57). `RSTATUS` is the code of `status` (R58). -/
structure Response where
  status : Status
  /-- `RLEN`. -/
  rlen : BitVec 8
  /-- `RDATA`. -/
  rdata : Word
deriving DecidableEq, Repr

/-- A move of the host and its platform at the block's boundary (R124, R126). Presenting the next command includes
having taken the previous response; no move breaks the protocol (log 8). -/
inductive HostMove where
  /-- Present a command and hold it until its response is delivered. -/
  | command (c : Command)
  /-- Present a command and assert reset before its response is delivered (R121). -/
  | commandCut (c : Command)
  /-- Assert reset with no command in progress (R121). -/
  | reset
deriving DecidableEq, Repr

/-- The state of the block and what surrounds it. -/
structure State where
  /-- The configuration registers `A` to `ZERO_OFFSET`; `none` is the spec's "holds no value", and `VALID` is 1
  exactly when they are set (R22, R23, R36; log 6). -/
  codec : Option Codec
  /-- The command port: `CMD`, `x[0]`, `x[1]`, `x[2]` (R20). -/
  port : Command
  /-- A command is presented and its response has not been delivered (R126). -/
  presented : Bool
  /-- The reset input is asserted (R121). -/
  resetLine : Bool
  /-- The responses delivered, oldest first (R21, R125); the response lines are the last one. -/
  responses : List Response
  /-- The model's own (log 8): the host's moves to come. -/
  host : List HostMove
  /-- The model's own (log 3): how many NaN patterns have been drawn. -/
  draws : Nat
deriving DecidableEq, Repr

/-- The reasons a step stops with a fault: none. Every error of the block is the status of a response, and the block
takes the next command as usual (R104, R116, R130; log 11). -/
inductive Fault where
deriving DecidableEq, Repr

/-- The reasons a step has no meaning. -/
inductive Refusal where
  /-- Raised by an arm of `exec` whose instruction has no meaning yet, with its mnemonic in the opcode table. No arm
  raises it now. Safe: the model stops where the block would go on. -/
  | notModelled (mnemonic : String)
deriving DecidableEq, Repr

/-- What a command ends in. -/
abbrev Outcome := Host.Outcome State Fault Refusal

/-- The block right after reset (R36, R121): no configuration; DESIGN CHOICE, logs 7 to 10: a zero port, no command
presented, the reset input released, no response delivered, no host move listed, no NaN drawn. -/
def State.reset : State where
  codec := none
  port := ⟨0#32, 0#64, 0#64, 0#64⟩
  presented := false
  resetLine := false
  responses := []
  host := []
  draws := 0

end Sys2Proof.Machine
end

