-- ==== Sys2Proof/Machine/Operands.lean ====
section
/-! DEFINITION. How each command reads the operand registers (R53, R40, R41), and the packing of a field's bytes
(R8, R17, R40). The block reads the operands and never writes them (R20). -/

namespace Sys2Proof.Machine

/-- `W`, the number of bytes of a field width (R25). -/
def Width.bytes : Width → Nat
  | .w1 => 1
  | .w2 => 2
  | .w4 => 4
  | .w8 => 8

/-- The width whose byte count a 64-bit unsigned integer is, tested over all 64 bits (R69, D12). -/
def widthOfWord (x : BitVec 64) : Option Width :=
  if x = 1#64 then some .w1
  else if x = 2#64 then some .w2
  else if x = 4#64 then some .w4
  else if x = 8#64 then some .w8
  else none

/-- `min` of `CFG` and `CFGP` (R53). -/
def minOperand (s : State) : Word := s.port.x0

/-- `max` of `CFG` and `CFGP` (R53). -/
def maxOperand (s : State) : Word := s.port.x1

/-- `fieldWidth` of `CFG`: an unsigned 64-bit integer (R53). -/
def widthOperand (s : State) : Word := s.port.x2

/-- `precision` of `CFGP`, as a datum (R53). -/
def precisionOperand (s : State) : F64 := asF64 s.port.x2

/-- `value` of `ENC`, as a datum (R53). -/
def valueOperand (s : State) : F64 := asF64 s.port.x0

/-- The register that carries the field of `DEC` (R53). -/
def fieldOperand (s : State) : Word := s.port.x0

/-- Byte `i` of a left-aligned field: bits `[63-8i : 56-8i]` (R40, R94). -/
def fieldByte (x : BitVec 64) (i : Nat) : Byte := x.extractLsb' (56 - 8 * i) 8

/-- The first `n` bytes of a left-aligned field (R94). -/
def fieldBytes (x : BitVec 64) (n : Nat) : List Byte := (List.range n).map (fieldByte x)

/-- `BE_pack(d, n)` (R17): byte `i` is `(d / 2^(8(n-1-i))) mod 256`. -/
def bePack (d n : Nat) : List Byte :=
  (List.range n).map (fun i => BitVec.ofNat 8 (d / 2 ^ (8 * (n - 1 - i)) % 256))

/-- `BE_unpack` (R17): each byte weighted by 256 to the number of bytes after it. -/
def beUnpack : List Byte → Nat
  | [] => 0
  | b :: bs => b.toNat * 2 ^ (8 * bs.length) + beUnpack bs

/-- A field of at most 8 bytes left-aligned in 64 bits, the bits below it zero (R40, R88). -/
def alignLeft (bs : List Byte) : BitVec 64 := BitVec.ofNat 64 (beUnpack bs * 2 ^ (64 - 8 * bs.length))

end Sys2Proof.Machine
end

