-- ==== Sys2Proof/Machine/Ops.lean ====
section
/-! DEFINITION. The operations every command shares: the response that ends it (R9, R57), the error that ends it (R104,
the block's only exception; there is no return from one, R116), the register reads (R102), the commit of a
configuration (R68, R71), reset (R121) and the host's moves at the port (R126). -/

namespace Sys2Proof.Machine

/-- `RSTATUS`, the code of a status (R58). -/
def Status.code : Status → BitVec 8
  | .ok => 0x00#8
  | .invalidFieldWidth => 0x01#8
  | .precisionUnrepresentable => 0x02#8
  | .outOfRange => 0x03#8
  | .lengthMismatch => 0x04#8
  | .decodedOutOfRange => 0x05#8
  | .notConfigured => 0x10#8
  | .codeUnrepresentable => 0x11#8
  | .illegalCommand => 0x12#8

/-- The three statuses the spec adds, which a run records as faults (R104). -/
def Status.isRunFault : Status → Bool
  | .ok => false
  | .invalidFieldWidth => false
  | .precisionUnrepresentable => false
  | .outOfRange => false
  | .lengthMismatch => false
  | .decodedOutOfRange => false
  | .notConfigured => true
  | .codeUnrepresentable => true
  | .illegalCommand => true

/-- Deliver a response: the command is over (R21, R57, R126). -/
def deliver (r : Response) (s : State) : State :=
  { s with presented := false, responses := s.responses ++ [r] }

/-- `respond(OK, rlen, rdata)` (R9, R57). -/
def respondOk (rlen : BitVec 8) (rdata : Word) (s : State) : Outcome := .next (deliver ⟨.ok, rlen, rdata⟩ s)

/-- `raise st` (R9, R104): the command ends at once, writes no register, and responds with the status and zeros. Every
error of the block is taken here; the next command is taken as usual (R116). -/
def raise (st : Status) (s : State) : Outcome := .next (deliver ⟨st, 0#8, 0#64⟩ s)

/-- `VALID` (R22, R23): a configuration exists. -/
def State.valid (s : State) : Bool := s.codec.isSome

/-- The register of a read index (R22); indices above 8 are no registers (R103). -/
def csrOfIndex (idx : BitVec 8) : Option Csr :=
  match idx.toNat with
  | 0 => some .valid
  | 1 => some .a
  | 2 => some .b
  | 3 => some .fieldWidth
  | 4 => some .domainBits
  | 5 => some .codeBits
  | 6 => some .scaleFwd
  | 7 => some .scaleRev
  | 8 => some .zeroOffset
  | _ => none

/-- The 64 bits a register of a configuration reads as (R102); `VALID` reads 1 where a configuration exists. -/
def Codec.read (k : Codec) : Csr → Word
  | .valid => 1#64
  | .a => k.a
  | .b => k.b
  | .fieldWidth => BitVec.ofNat 64 k.fieldWidth.bytes
  | .domainBits => k.domainBits
  | .codeBits => BitVec.ofNat 64 k.codeBits
  | .scaleFwd => k.scaleFwd
  | .scaleRev => k.scaleRev
  | .zeroOffset => k.zeroOffset

/-- The 64 bits a register reads as, if it holds a value (R22, R102): with no configuration `VALID` reads 0 and the
others hold none (R36). -/
def readCsr (s : State) (r : Csr) : Option Word :=
  match s.codec with
  | some k => some (k.read r)
  | none => if r = .valid then some 0#64 else none

/-- `Configure`'s `dB` (R26, R68): `ceil64(LOG2(fsub(max, min)))`. -/
def domainBitsOf (min max : F64) : F64 := ceil64 (LOG2 (fsub max min))

/-- `CODE_BITS` of a width (R27): `8 W - 1`. -/
def codeBitsOf (w : Width) : Nat := 8 * w.bytes - 1

/-- `SCALE_FWD` (R28, R68): `POW2(fsub(codeBits, domainBits))`. -/
def scaleFwdOf (w : Width) (dB : F64) : F64 := POW2 (fsub (F64.ofNat (codeBitsOf w)) dB)

/-- `SCALE_REV` (R29, R68): `POW2(fsub(domainBits, codeBits))`. -/
def scaleRevOf (w : Width) (dB : F64) : F64 := POW2 (fsub dB (F64.ofNat (codeBitsOf w)))

/-- `ZERO_OFFSET` (R30, R70): `fsub(p, floor64(p))` with `p = fmul(SCALE_FWD, min)` where the range straddles zero,
and otherwise `+0.0`. -/
def zeroOffsetOf (min max sF : F64) : F64 :=
  if flt min (F64.ofNat 0) && fgt max (F64.ofNat 0) then
    fsub (fmul sF min) (floor64 (fmul sF min))
  else F64.ofNat 0

/-- The registers of a range, a width and its domain bits (R68). NaN results take the draws from `n` on, one for each
register (R11, R102; log 3). -/
def codecOf (minBits maxBits : Word) (w : Width) (dB : F64) (n : Nat) : Codec where
  a := minBits
  b := maxBits
  fieldWidth := w
  domainBits := bitsOf (Config.nanDraw n) dB
  codeBits := codeBitsOf w
  scaleFwd := bitsOf (Config.nanDraw (n + 1)) (scaleFwdOf w dB)
  scaleRev := bitsOf (Config.nanDraw (n + 2)) (scaleRevOf w dB)
  zeroOffset := bitsOf (Config.nanDraw (n + 3)) (zeroOffsetOf (asF64 minBits) (asF64 maxBits) (scaleFwdOf w dB))

/-- `Configure(min, max, w)` (R68): every register of the new configuration. -/
def rangeScale (minBits maxBits : Word) (w : Width) (n : Nat) : Codec :=
  codecOf minBits maxBits w (domainBitsOf (asF64 minBits) (asF64 maxBits)) n

/-- The commit (R68, R71): the whole configuration at once, four draws used. -/
def commit (k : Codec) (s : State) : State := { s with codec := some k, draws := s.draws + 4 }

/-- `Configure` with its commit and the response of a successful configuration (R57, R67, R68, R73). -/
def configure (minBits maxBits : Word) (w : Width) (s : State) : Outcome :=
  respondOk 0#8 0#64 (commit (rangeScale minBits maxBits w s.draws) s)

/-- A real result delivered in `RDATA` (R57, R99); a NaN takes the next draw (R11). -/
def respondReal (v : F64) (s : State) : Outcome :=
  respondOk 8#8 (bitsOf (Config.nanDraw s.draws) v) { s with draws := s.draws + 1 }

/-- A value outside the range of the configuration: below `A` or above `B`, the bounds inclusive, and a NaN on either
side of a comparison passing it (R84, R98). -/
def outsideRange (k : Codec) (v : F64) : Bool := flt v (asF64 k.a) || fgt v (asF64 k.b)

/-- Reset (R121): no configuration; a command in progress is abandoned with no response and no effect; the reset input
is released (log 9). -/
def applyReset (s : State) : State := { s with codec := none, presented := false, resetLine := false }

/-- The host presents a command at the port (R126). -/
def presentCommand (c : Command) (s : State) : State := { s with port := c, presented := true }

/-- The host's next move, with no command in progress (R126; log 8). With none left the block is idle (R118). -/
def hostMove (s : State) : State :=
  match s.host with
  | [] => s
  | .command c :: rest => presentCommand c { s with host := rest }
  | .commandCut c :: rest => presentCommand c { s with host := rest, resetLine := true }
  | .reset :: rest => { s with host := rest, resetLine := true }

/-- A command word put on the port as a presented command, the operand registers as they are. -/
def presentWord (cmd : CmdWord) (s : State) : State :=
  { s with port := { s.port with cmd := cmd }, presented := true, resetLine := false }

end Sys2Proof.Machine
end

