-- ==== Sys2Proof/Machine/Configure.lean ====
section
/-! DEFINITION. The range-scale unit's commands: `CFG` and `CFGP` (spec/40_configure.md). -/

namespace Sys2Proof.Machine

/-- `CFG min, max, w` (R67): the width test, then Configure. Legal in every state. -/
def execCfg (s : State) : Outcome :=
  match widthOfWord (widthOperand s) with
  | none => raise .invalidFieldWidth s
  | some w => configure (minOperand s) (maxOperand s) w s

/-- `byteLen` of `CFGP` (R73, R74): `ceil64(bits / 8)` with `bits = ceil64(LOG2((max - min) / p) + 1)`, every step in
binary64. -/
def byteLenOf (min max p : F64) : F64 :=
  ceil64 (fdiv (ceil64 (fadd (LOG2 (fdiv (fsub max min) p)) (F64.ofNat 1))) (F64.ofNat 8))

/-- The resolved width `wf` of `CFGP` (R73, R75): `byteLen` as it is up to 2, else 4 or 8. -/
def resolvedWidth (byteLen : F64) : Option F64 :=
  if fle byteLen (F64.ofNat 2) then some byteLen
  else if fle byteLen (F64.ofNat 4) then some (F64.ofNat 4)
  else if fle byteLen (F64.ofNat 8) then some (F64.ofNat 8)
  else none

/-- The width check of `CFGP` by `feq` (R69, R76). -/
def widthOfF64 (wf : F64) : Option Width :=
  if feq wf (F64.ofNat 1) then some .w1
  else if feq wf (F64.ofNat 2) then some .w2
  else if feq wf (F64.ofNat 4) then some .w4
  else if feq wf (F64.ofNat 8) then some .w8
  else none

/-- The field width `CFGP` selects for a byte length, or the status it ends with (R73, R75, R76, R114). -/
def selectWidth (byteLen : F64) : Except Status Width :=
  match resolvedWidth byteLen with
  | none => .error .precisionUnrepresentable
  | some wf =>
    match widthOfF64 wf with
    | none => .error .invalidFieldWidth
    | some w => .ok w

/-- `CFGP min, max, p` (R73): the width selection, then Configure. Legal in every state. -/
def execCfgp (s : State) : Outcome :=
  match selectWidth (byteLenOf (asF64 (minOperand s)) (asF64 (maxOperand s)) (precisionOperand s)) with
  | .error st => raise st s
  | .ok w => configure (minOperand s) (maxOperand s) w s

end Sys2Proof.Machine
end

