-- ==== Sys2Proof/Machine/CsrAccess.lean ====
section
/-! DEFINITION. Configuration register access: `RDCSR` (spec/43_csr_access.md). -/

namespace Sys2Proof.Machine

/-- `RDCSR idx` (R101): an index that is no register is an illegal command (R103; the decoder has refused its word,
R55 (4)); a register that holds no value is NotConfigured; `VALID` always reads. No register changes. -/
def execRdcsr (idx : BitVec 8) (s : State) : Outcome :=
  match csrOfIndex idx with
  | none => raise .illegalCommand s
  | some r =>
    match readCsr s r with
    | none => raise .notConfigured s
    | some v => respondOk 8#8 v s

end Sys2Proof.Machine
end

