-- ==== Sys2Proof/Machine/Dequantize.lean ====
section
/-! DEFINITION. The inverse scaler's command: `DEC` (spec/42_dequantize.md). -/

namespace Sys2Proof.Machine

/-- The 64 bits a sentinel byte decodes to (R95); no other byte 0 is special (R62, R63). -/
def sentinelBits (b : Byte) : Option Word :=
  if b = 0xC8#8 then some 0x7FF0000000000000#64
  else if b = 0xE8#8 then some 0xFFF0000000000000#64
  else if b = 0xD0#8 then some Config.decodeNan.bits
  else none

/-- `v` of a code (R97): convert, subtract, multiply, add, each rounded once. -/
def dequantized (k : Codec) (l : Nat) : F64 :=
  fadd (fmul (asF64 k.scaleRev) (fsub (u64ToF64 l) (asF64 k.zeroOffset))) (asF64 k.a)

/-- The value of the field presented, read as an unsigned big-endian code of `W` bytes (R94, R96, R97). -/
def decodedValue (k : Codec) (s : State) : F64 :=
  dequantized k (beUnpack (fieldBytes (fieldOperand s) k.fieldWidth.bytes))

/-- `DEC n, field` (R91): NotConfigured (R92), LengthMismatch (R93), the sentinels by byte 0 alone (R95),
DecodedOutOfRange (R98), and the value of the unsigned big-endian code (R96, R97, R99). -/
def execDec (len : BitVec 8) (s : State) : Outcome :=
  match s.codec with
  | none => raise .notConfigured s
  | some k =>
    if len.toNat ≠ k.fieldWidth.bytes then raise .lengthMismatch s
    else
      match sentinelBits (fieldByte (fieldOperand s) 0) with
      | some p => respondOk 8#8 p s
      | none =>
        if outsideRange k (decodedValue k s) then raise .decodedOutOfRange s
        else respondReal (decodedValue k s) s

end Sys2Proof.Machine
end

