-- ==== Sys2Proof/Machine/Quantize.lean ====
section
/-! DEFINITION. The quantizer's command: `ENC` (spec/41_quantize.md). -/

namespace Sys2Proof.Machine

/-- The sentinel byte of a special value (R61, R83). -/
def sentinelOf : F64 → Option Byte
  | .nan => some 0xD0#8
  | .inf neg => if neg then some 0xE8#8 else some 0xC8#8
  | .fin _ _ => none

/-- `rf` (R85): subtract, multiply, add, floor, each rounded once. -/
def quantized (k : Codec) (v : F64) : F64 :=
  floor64 (fadd (fmul (asF64 k.scaleFwd) (fsub v (asF64 k.a))) (asF64 k.zeroOffset))

/-- Deliver the code `c` as the field of `W` bytes, left-aligned (R87, R88). -/
def respondField (w : Width) (c : Nat) (s : State) : Outcome :=
  respondOk (BitVec.ofNat 8 w.bytes) (alignLeft (bePack c w.bytes)) s

/-- `ENC v` (R81): NotConfigured (R82), the special values (R83), OutOfRange (R84), CodeUnrepresentable (R86), and the
code reduced modulo `2^(8W)`, never clamped (R87). -/
def execEnc (s : State) : Outcome :=
  match s.codec with
  | none => raise .notConfigured s
  | some k =>
    match sentinelOf (valueOperand s) with
    | some b => respondField k.fieldWidth (b.toNat * 2 ^ (8 * (k.fieldWidth.bytes - 1))) s
    | none =>
      if outsideRange k (valueOperand s) then raise .outOfRange s
      else
        match toU64 (quantized k (valueOperand s)) with
        | none => raise .codeUnrepresentable s
        | some d => respondField k.fieldWidth (d % 2 ^ (8 * k.fieldWidth.bytes)) s

end Sys2Proof.Machine
end

