-- ==== Sys2Proof/Machine/Dispatch.lean ====
section
/-! DEFINITION. One arm per instruction (R52), each one direct call of its meaning. -/

namespace Sys2Proof.Machine

def exec (i : Instr) (s : State) : Host.Outcome State Fault Refusal :=
  match i with
  | .cfg => Sys2Proof.Machine.execCfg s
  | .cfgp => Sys2Proof.Machine.execCfgp s
  | .enc => Sys2Proof.Machine.execEnc s
  | .dec len => Sys2Proof.Machine.execDec len s
  | .rdcsr idx => Sys2Proof.Machine.execRdcsr idx s

end Sys2Proof.Machine
end

