-- ==== Sys2Proof/Machine/Step.lean ====
section
/-! DEFINITION. One step of the machine. -/

namespace Sys2Proof.Machine

/-- One step: reset where the reset input is asserted (R121); else the presented command, from acceptance to its
response (R3, R44, R126), an illegal word ending with `IllegalCommand` before anything else is looked at (R55, R114);
else the host's next move (R126). -/
def step (s : State) : Host.Outcome State Fault Refusal :=
  if s.resetLine then .next (applyReset s)
  else if s.presented then
    match decode s.port.cmd with
    | .ok i => exec i s
    | .error _ => raise .illegalCommand s
  else .next (hostMove s)

/-- The state in which the next step runs the instruction of an opcode-table word: the word presented at the command
port, the reset input released (log 8). -/
def State.withFetchWord (s : State) (nbits w : Nat) : State := presentWord (tableCommand nbits w) s

end Sys2Proof.Machine
end

