-- ==== Sys2Proof/Safety.lean ====
section
/-! DEFINITION. The terms claims use: what a run shows and when it is faulted (R104, R125), what a legal configuration
is (R22 to R30), what a legal response is (R57), and the invariant of the block. -/

namespace Sys2Proof

/-- A datum that is one binary64 holds (R10): a finite magnitude below 2^1024 with at most 53 significant bits. -/
def F64.isBinary64 : F64 → Prop
  | .nan => True
  | .inf _ => True
  | .fin _ m => m < F64.limit ∧ m % 2 ^ (m.log2 - 52) = 0

/-- A datum is an integer, an infinity or a NaN (R22, R26). -/
def F64.integralOrSpecial : F64 → Prop
  | .nan => True
  | .inf _ => True
  | .fin _ m => m % F64.unit = 0

/-- A datum is `+0.0`, a power of two, `+inf` or a NaN (R22). -/
def F64.scaleLike : F64 → Prop
  | .nan => True
  | .inf neg => neg = false
  | .fin neg m => neg = false ∧ (m = 0 ∨ ∃ e, m = 2 ^ e)

/-- A datum is `+0.0`, a value in [0, 1], or a NaN (R22, R30). -/
def F64.offsetLike : F64 → Prop
  | .nan => True
  | .inf _ => False
  | .fin neg m => neg = false ∧ m ≤ F64.unit

/-- The magnitude `m` is the exact quotient `num / den` rounded to nearest, ties to even (R11): it has at most 53
significant bits, no other such magnitude is nearer, and where another is as near `m` has an even significand. -/
def nearestEven (num den m : Nat) : Prop :=
  m % 2 ^ (m.log2 - 52) = 0 ∧
  (∀ y : Nat, y % 2 ^ (y.log2 - 52) = 0 →
    |(m : Int) * den - num| ≤ |(y : Int) * den - num|) ∧
  (∀ y : Nat, y % 2 ^ (y.log2 - 52) = 0 → y ≠ m →
    |(y : Int) * den - num| = |(m : Int) * den - num| → m / 2 ^ (m.log2 - 52) % 2 = 0)

/-- The datum `f` is the exact value `±num / den` rounded once, a rounded magnitude of 2^1024 or more being an infinity
of the value's sign (R11). -/
def F64.isRounding (f : F64) (neg : Bool) (num den : Nat) : Prop :=
  ∃ m : Nat, nearestEven num den m ∧ f = if F64.limit ≤ m then .inf neg else .fin neg m

end Sys2Proof

namespace Sys2Proof.Machine

/-- The block is about to run a command: one is presented and reset is not asserted (R126). -/
def State.ready (s : State) : Prop := s.presented = true ∧ s.resetLine = false

/-- The run has recorded a fault (R104). -/
def State.runFaulted (s : State) : Bool := s.responses.any (fun r => r.status.isRunFault)

/-- The observation of a run (R125): the responses, and the registers by read index. -/
def State.observation (s : State) : List (BitVec 8 × BitVec 8 × Word) × List (Option Word) :=
  (s.responses.map (fun r => (r.status.code, r.rlen, r.rdata)),
    [Csr.valid, .a, .b, .fieldWidth, .domainBits, .codeBits, .scaleFwd, .scaleRev, .zeroOffset].map (readCsr s))

/-- A response has a form of R57: an error carries zeros; a success carries no data, a field of a legal width with
the bits below it zero, or eight bytes. -/
def Response.legal (r : Response) : Prop :=
  (r.status ≠ .ok → r.rlen = 0#8 ∧ r.rdata = 0#64) ∧
  (r.rlen = 0#8 → r.rdata = 0#64) ∧
  (r.rlen = 0#8 ∨ ∃ w : Width, r.rlen = BitVec.ofNat 8 w.bytes ∧ r.rdata.toNat % 2 ^ (64 - 8 * w.bytes) = 0)

/-- The relations rules R26 to R30 state between the registers of a configuration. -/
structure Codec.derived (k : Codec) : Prop where
  domainBits : asF64 k.domainBits = domainBitsOf (asF64 k.a) (asF64 k.b)
  codeBits : k.codeBits = 8 * k.fieldWidth.bytes - 1
  scaleFwd : asF64 k.scaleFwd = POW2 (fsub (F64.ofNat k.codeBits) (asF64 k.domainBits))
  scaleRev : asF64 k.scaleRev = POW2 (fsub (asF64 k.domainBits) (F64.ofNat k.codeBits))
  zeroOffset : asF64 k.zeroOffset = zeroOffsetOf (asF64 k.a) (asF64 k.b) (asF64 k.scaleFwd)

/-- The legal values of the registers (R22). -/
structure Codec.legal (k : Codec) : Prop where
  codeBits : k.codeBits = 7 ∨ k.codeBits = 15 ∨ k.codeBits = 31 ∨ k.codeBits = 63
  domainBits : F64.integralOrSpecial (asF64 k.domainBits)
  scaleFwd : F64.scaleLike (asF64 k.scaleFwd)
  scaleRev : F64.scaleLike (asF64 k.scaleRev)
  zeroOffset : F64.offsetLike (asF64 k.zeroOffset)

/-- The invariant of the block: the registers of a configuration are derived from its range and width by rules R26 to
R30 and hold legal values (R22), and every response delivered has a form of R57. -/
structure State.Inv (s : State) : Prop where
  derived : ∀ k, s.codec = some k → k.derived
  legal : ∀ k, s.codec = some k → k.legal
  responses : ∀ r ∈ s.responses, r.legal

end Sys2Proof.Machine
end

