-- ==== Sys2Proof/WellFormed.lean ====
section
/-! DEFINITION. Which instructions a command word can carry (R55, R56). -/

namespace Sys2Proof

/-- `RDCSR` takes the indices 0x00 to 0x08 only (R54, R55 (4)); `DEC` takes every length (R54, R93); the others carry
nothing. -/
def Instr.wellFormed : Instr → Bool
  | .cfg => true
  | .cfgp => true
  | .enc => true
  | .dec _ => true
  | .rdcsr idx => decide (idx.toNat ≤ 8)

end Sys2Proof
end

