-- ==== Sys2Proof/Certificates/Slice0/Obligations.lean ====
section
/-! DEFINITION. The statements for the provers. Each docstring names the rules of spec/ it formalises; a statement or a
clause that rests on a choice of the model says so and names its log. -/

open Sys2Proof Sys2Proof.Machine

/-! ### The command word (spec/30_encoding.md) -/

/-- Decode and encode agree both ways (R51, R52, R54, R55): a word decodes to an instruction exactly where the
instruction is well formed and the word is its encoding. -/
def Obligations.DecodeAcceptsExactlyTheEncodings : Prop :=
  ∀ (w : BitVec 32) (i : Instr), decode w = .ok i ↔ i.wellFormed = true ∧ encode i = w

/-- One word per command, as rule R65 writes them, decodes to the command. -/
def Obligations.WordsOfRuleR65Decode : Prop :=
  decode 0x00000001#32 = .ok .cfg ∧ decode 0x00000002#32 = .ok .cfgp ∧ decode 0x00000003#32 = .ok .enc ∧
    decode 0x00000404#32 = .ok (.dec 4#8) ∧ decode 0x00000605#32 = .ok (.rdcsr 6#8)

/-- R55: a word with a reserved operation, a nonzero reserved field, a nonzero `IMM8` where it must be zero, or an
undefined register index ends with `IllegalCommand` in every configuration, changing nothing else; every other word is
a command and runs. -/
def Obligations.IllegalWordsEndWithIllegalCommand : Prop :=
  ∀ s : State, s.ready →
    let n := s.port.cmd.toNat
    let illegal := n % 16 = 0 ∨ 6 ≤ n % 16 ∨ n / 16 % 16 ≠ 0 ∨ n / 65536 ≠ 0 ∨
      (1 ≤ n % 16 ∧ n % 16 ≤ 3 ∧ n / 256 % 256 ≠ 0) ∨ (n % 16 = 5 ∧ 8 < n / 256 % 256)
    (illegal → step s =
      .next { s with presented := false, responses := s.responses ++ [⟨.illegalCommand, 0#8, 0#64⟩] }) ∧
    (¬ illegal → ∃ i : Instr, i.wellFormed = true ∧ decode s.port.cmd = .ok i ∧ step s = exec i s)

/-! ### The step (spec/10_state.md, 60_exceptions.md, 70_reset_and_hazards.md) -/

/-- A step with a command presented and reset not asserted runs the decoded instruction, and that is the whole step
(R3, R44, R126). -/
def Obligations.StepRunsTheDecodedCommand : Prop :=
  ∀ (s : State) (i : Instr), s.ready → i.wellFormed = true → decode s.port.cmd = .ok i → step s = exec i s

/-- Every presented command, of any word and operands, ends with exactly one response, and the port is left alone (R3,
R20, R44, R126, R130). That it ends in one step is the model's choice (log 13), and so is the list of the host's moves,
which is left alone too (log 8). -/
def Obligations.EveryCommandEndsWithOneResponse : Prop :=
  ∀ s : State, s.ready → ∃ t r, step s = .next t ∧ t.responses = s.responses ++ [r] ∧ t.presented = false ∧
    t.port = s.port ∧ t.resetLine = false ∧ t.host = s.host

/-- A run cannot hang or stop, however long it is and wherever it starts (R125, R130). -/
def Obligations.NoRunStops : Prop := ∀ (n : Nat) (s : State), ∃ t, Sys2Proof.core.run n s = .next t

/-- Reset leaves no register a value and abandons a command in progress with no response (R121, R36). That the port, the
responses already delivered and the host's moves stay, and that one step releases the input, is the model's choice
(log 9). -/
def Obligations.ResetUnsetsTheConfiguration : Prop :=
  ∀ s : State, s.resetLine = true →
    ∃ t, step s = .next t ∧ t.valid = false ∧ (∀ r : Csr, r ≠ .valid → readCsr t r = none) ∧
      readCsr t .valid = some 0#64 ∧ t.presented = false ∧ t.responses = s.responses ∧ t.port = s.port ∧
      t.host = s.host ∧ t.resetLine = false ∧ t.draws = s.draws

/-- A command that reset cuts short has no effect and no response: two steps after the host presented it, the block is
reset, whatever the command was (R121; the two steps are the model's, log 8 and log 9). -/
def Obligations.ResetCutsACommandShort : Prop :=
  ∀ (s : State) (c : Command) (rest : List HostMove), s.presented = false → s.resetLine = false →
    s.host = .commandCut c :: rest →
    Sys2Proof.core.run 2 s = .next { s with codec := none, port := c, host := rest }

/-- A command of the host's list is presented by one step and over after the next, its response delivered after the
others (R126; log 8). -/
def Obligations.HostCommandRunsInTwoSteps : Prop :=
  ∀ (s : State) (c : Command) (rest : List HostMove), s.presented = false → s.resetLine = false →
    s.host = .command c :: rest →
    ∃ t r, Sys2Proof.core.run 2 s = .next t ∧ step { s with port := c, presented := true, host := rest } = .next t ∧
      t.responses = s.responses ++ [r] ∧ t.host = rest ∧ t.port = c ∧ t.presented = false ∧ t.resetLine = false

/-- An idle block with no host move left stays as it is for any number of steps (R118; log 12). -/
def Obligations.IdleBlockStaysAsItIs : Prop :=
  ∀ (n : Nat) (s : State), s.presented = false → s.resetLine = false → s.host = [] → Sys2Proof.core.run n s = .next s

/-- Every step keeps the invariant: the registers are derived from the range and the width by rules R26 to R30, hold the
legal values of R22, and every response has a form of R57. -/
def Obligations.StepKeepsTheInvariant : Prop :=
  ∀ s t : State, s.Inv → step s = .next t → t.Inv

/-- The state after reset meets the invariant (R36). -/
def Obligations.ResetMeetsTheInvariant : Prop := State.reset.Inv

/-- After reset `VALID` reads 0 and no other register holds a value (R36). -/
def Obligations.ResetHoldsNoConfiguration : Prop :=
  readCsr State.reset .valid = some 0#64 ∧ ∀ r : Csr, r ≠ .valid → readCsr State.reset r = none

/-- A fault of the run is never cleared by a later step (R104). -/
def Obligations.RunFaultsAreNeverCleared : Prop :=
  ∀ (n : Nat) (s t : State), s.runFaulted = true → Sys2Proof.core.run n s = .next t → t.runFaulted = true

/-- The nine codes of `RSTATUS` are those of R58, no two statuses sharing one, and exactly three of the statuses fault a
run (R104): a step makes an unfaulted run faulted only with a response of `NotConfigured`, `CodeUnrepresentable` or
`IllegalCommand`, and a command that ends with one of these leaves the run faulted. -/
def Obligations.OnlyTheThreeAddedStatusesFaultARun : Prop :=
  (Status.code .ok = 0x00#8 ∧ Status.code .invalidFieldWidth = 0x01#8 ∧
    Status.code .precisionUnrepresentable = 0x02#8 ∧ Status.code .outOfRange = 0x03#8 ∧
    Status.code .lengthMismatch = 0x04#8 ∧ Status.code .decodedOutOfRange = 0x05#8 ∧
    Status.code .notConfigured = 0x10#8 ∧ Status.code .codeUnrepresentable = 0x11#8 ∧
    Status.code .illegalCommand = 0x12#8 ∧ ∀ a b : Status, a.code = b.code → a = b) ∧
  (∀ s t : State, s.runFaulted = false → step s = .next t → t.runFaulted = true →
    t.responses = s.responses ++ [⟨.notConfigured, 0#8, 0#64⟩] ∨
    t.responses = s.responses ++ [⟨.codeUnrepresentable, 0#8, 0#64⟩] ∨
    t.responses = s.responses ++ [⟨.illegalCommand, 0#8, 0#64⟩]) ∧
  (∀ (s t : State) (r : Response), s.ready → step s = .next t → t.responses = s.responses ++ [r] →
    r.status = .notConfigured ∨ r.status = .codeUnrepresentable ∨ r.status = .illegalCommand → t.runFaulted = true)

/-- The block never changes a delivered response (R126). -/
def Obligations.DeliveredResponsesAreNeverChanged : Prop :=
  ∀ (n : Nat) (s t : State), Sys2Proof.core.run n s = .next t → ∃ later, t.responses = s.responses ++ later

/-- A command, of any word, that ends with an error changes no register, and its response carries zeros (R57, R72, R104,
R113). That it draws no NaN pattern is the model's choice (log 3). -/
def Obligations.FailedCommandsChangeNothing : Prop :=
  ∀ (s t : State) (r : Response), s.ready → step s = .next t → t.responses = s.responses ++ [r] → r.status ≠ .ok →
    t = { s with presented := false, responses := s.responses ++ [⟨r.status, 0#8, 0#64⟩] }

/-- The registers change only at the end of a successful `CFG` or `CFGP`, all together, to a configuration of that
command's own bounds (R31, R44, R71). -/
def Obligations.OnlySuccessfulConfigurationsWriteRegisters : Prop :=
  ∀ (i : Instr) (s t : State), exec i s = .next t → t.codec ≠ s.codec →
    (i = .cfg ∨ i = .cfgp) ∧ t.responses = s.responses ++ [⟨.ok, 0#8, 0#64⟩] ∧
      ∃ w : Width, t.codec = some (rangeScale s.port.x0 s.port.x1 w s.draws)

/-- Frame of `ENC`, `DEC` and `RDCSR`: no register, port, reset input or host move changes; the one response is added
(R22, R31, R81, R91, R101). -/
def Obligations.ReadingCommandsFrame : Prop :=
  ∀ (i : Instr) (s t : State), i ≠ .cfg → i ≠ .cfgp → exec i s = .next t →
    t.codec = s.codec ∧ t.port = s.port ∧ t.resetLine = s.resetLine ∧ t.host = s.host ∧
      ∃ r, t.responses = s.responses ++ [r]

/-- `VALID` after a command is 1 exactly where it was 1 or the command is a configuration that ended with `OK` (R23). -/
def Obligations.ValidFollowsTheConfigurations : Prop :=
  ∀ (i : Instr) (s t : State), exec i s = .next t →
    (t.valid = true ↔
      s.valid = true ∨ ((i = .cfg ∨ i = .cfgp) ∧ t.responses = s.responses ++ [⟨.ok, 0#8, 0#64⟩]))

/-- Operands a command does not use are ignored: `ENC` and `DEC` do not read `x[1]` and `x[2]`, `RDCSR` reads no operand
(R50, R53): the registers and the response are the same for all their values. -/
def Obligations.UnusedOperandsAreIgnored : Prop :=
  ∀ (s t : State) (i : Instr) (y0 y1 y2 : Word), i ≠ .cfg → i ≠ .cfgp → exec i s = .next t →
    ((∀ idx, i ≠ .rdcsr idx) → y0 = s.port.x0) →
    exec i { s with port := ⟨s.port.cmd, y0, y1, y2⟩ } = .next { t with port := ⟨s.port.cmd, y0, y1, y2⟩ }

/-! ### Configuration (spec/40_configure.md) -/

/-- `CFG` with a legal width commits every register of R68 and responds `OK` with zeros (R67, R68, R71). NaN results are
stored as some NaN pattern (R11, R102); the rest of the state is unchanged. -/
def Obligations.CfgCommitsEveryRegister : Prop :=
  ∀ (s : State) (w : Width), s.port.x2 = BitVec.ofNat 64 w.bytes →
    let dB := ceil64 (fdiv (LN (fsub (asF64 s.port.x1) (asF64 s.port.x0))) (LN (F64.ofNat 2)))
    let sF := POW2 (fsub (F64.ofNat (8 * w.bytes - 1)) dB)
    let p := fmul sF (asF64 s.port.x0)
    ∃ (t : State) (n0 n1 n2 n3 : NanPattern),
      exec .cfg s = .next t ∧
      t.codec = some
        { a := s.port.x0, b := s.port.x1, fieldWidth := w
          domainBits := bitsOf n0 dB
          codeBits := 8 * w.bytes - 1
          scaleFwd := bitsOf n1 sF
          scaleRev := bitsOf n2 (POW2 (fsub dB (F64.ofNat (8 * w.bytes - 1))))
          zeroOffset := bitsOf n3
            (if flt (asF64 s.port.x0) (F64.ofNat 0) = true ∧ fgt (asF64 s.port.x1) (F64.ofNat 0) = true
              then fsub p (floor64 p) else F64.ofNat 0) } ∧
      t.responses = s.responses ++ [⟨.ok, 0#8, 0#64⟩] ∧ t.presented = false ∧
      t.port = s.port ∧ t.resetLine = s.resetLine ∧ t.host = s.host

/-- `CFG` with any other 64-bit width fails with `InvalidFieldWidth` and changes nothing else (R69, R72, R105). -/
def Obligations.CfgRejectsEveryOtherWidth : Prop :=
  ∀ s : State, s.port.x2.toNat ≠ 1 → s.port.x2.toNat ≠ 2 → s.port.x2.toNat ≠ 4 → s.port.x2.toNat ≠ 8 →
    exec .cfg s =
      .next { s with presented := false, responses := s.responses ++ [⟨.invalidFieldWidth, 0#8, 0#64⟩] }

/-- The width `CFGP` selects for a byte length, case by case (R75, R76): 1 and 2 as they are, above 2 up to 4 gives 4,
above 4 up to 8 gives 8; every other value of at most 2 is `InvalidFieldWidth`, and what is not at most 8, a NaN
included, is `PrecisionUnrepresentable`. -/
def Obligations.ByteLengthSelectsTheWidth : Prop :=
  ∀ L : F64,
    (feq L (F64.ofNat 1) = true → selectWidth L = .ok .w1) ∧
    (feq L (F64.ofNat 2) = true → selectWidth L = .ok .w2) ∧
    (fle L (F64.ofNat 2) = true → feq L (F64.ofNat 1) = false → feq L (F64.ofNat 2) = false →
      selectWidth L = .error .invalidFieldWidth) ∧
    (fgt L (F64.ofNat 2) = true → fle L (F64.ofNat 4) = true → selectWidth L = .ok .w4) ∧
    (fgt L (F64.ofNat 4) = true → fle L (F64.ofNat 8) = true → selectWidth L = .ok .w8) ∧
    (fle L (F64.ofNat 8) = false → selectWidth L = .error .precisionUnrepresentable)

/-- `CFGP` completes where its operands' byte length selects a width: it configures with that width, as `CFG` with the
same bounds and that width does from the same state (R73, "delegates to the explicit constructor"). -/
def Obligations.CfgpConfiguresAsCfgWithTheSelectedWidth : Prop :=
  ∀ (s : State) (w : Width),
    let L := ceil64 (fdiv (ceil64 (fadd
      (LOG2 (fdiv (fsub (asF64 s.port.x1) (asF64 s.port.x0)) (asF64 s.port.x2))) (F64.ofNat 1))) (F64.ofNat 8))
    selectWidth L = .ok w →
    ∃ t : State, exec .cfgp s = .next t ∧
      exec .cfg { s with port := { s.port with x2 := BitVec.ofNat 64 w.bytes } } =
        .next { t with port := { s.port with x2 := BitVec.ofNat 64 w.bytes } } ∧
      t.port = s.port ∧ t.valid = true ∧ (readCsr t .fieldWidth = some (BitVec.ofNat 64 w.bytes)) ∧
      t.responses = s.responses ++ [⟨.ok, 0#8, 0#64⟩]

/-- `CFGP` whose byte length selects no width ends with the selection's status, `PrecisionUnrepresentable` or
`InvalidFieldWidth`, and changes nothing else (R72, R73, R105, R106). -/
def Obligations.CfgpReportsTheFailedSelection : Prop :=
  ∀ (s : State) (st : Status),
    let L := ceil64 (fdiv (ceil64 (fadd
      (LOG2 (fdiv (fsub (asF64 s.port.x1) (asF64 s.port.x0)) (asF64 s.port.x2))) (F64.ofNat 1))) (F64.ofNat 8))
    selectWidth L = .error st →
    (st = .precisionUnrepresentable ∨ st = .invalidFieldWidth) ∧
    exec .cfgp s = .next { s with presented := false, responses := s.responses ++ [⟨st, 0#8, 0#64⟩] }

/-- `CFGP` with `r = (max - min) / p = 1` completes and configures one byte, for every `LN` (R73, R77 row 3 at `r = 1`;
`LN(1.0) = +0.0` by R14; that `LN2` is finite and nonzero is DEDUCED, log 2). -/
def Obligations.CfgpOfUnitRatioSelectsOneByte : Prop :=
  ∀ s : State,
    fdiv (fsub (asF64 s.port.x1) (asF64 s.port.x0)) (asF64 s.port.x2) = F64.ofNat 1 →
    ∃ t, exec .cfgp s = .next t ∧ readCsr t .fieldWidth = some 1#64 ∧ readCsr t .valid = some 1#64 ∧
      readCsr t .a = some s.port.x0 ∧ readCsr t .b = some s.port.x1 ∧
      t.responses = s.responses ++ [⟨.ok, 0#8, 0#64⟩]

/-- `CFGP` with a ratio that is a NaN, negative and nonzero, or infinite ends with `PrecisionUnrepresentable` (R73 corner
cases, R106, R77; that `LN2` is positive and finite is DEDUCED, log 2). -/
def Obligations.CfgpWithoutALogarithmIsUnrepresentable : Prop :=
  ∀ s : State,
    let r := fdiv (fsub (asF64 s.port.x1) (asF64 s.port.x0)) (asF64 s.port.x2)
    (r = .nan ∨ (∃ b, r = .inf b) ∨ ∃ m, m ≠ 0 ∧ r = .fin true m) →
    exec .cfgp s =
      .next { s with presented := false, responses := s.responses ++ [⟨.precisionUnrepresentable, 0#8, 0#64⟩] }

/-- `CFGP` with a zero ratio, such as `min = max` with a finite nonzero precision, ends with `InvalidFieldWidth` (R73
corner cases, R76, R77; that `LN2` is positive and finite is DEDUCED, log 2). -/
def Obligations.CfgpOfZeroRatioIsInvalidWidth : Prop :=
  ∀ (s : State) (b : Bool),
    fdiv (fsub (asF64 s.port.x1) (asF64 s.port.x0)) (asF64 s.port.x2) = .fin b 0 →
    exec .cfgp s =
      .next { s with presented := false, responses := s.responses ++ [⟨.invalidFieldWidth, 0#8, 0#64⟩] }

/-- R78, first row: a configuration with `a = b` finite has `DOMAIN_BITS = -inf`, `SCALE_FWD = +inf`, `SCALE_REV = +0.0`
and `ZERO_OFFSET = +0.0` (that `LN2` is positive and finite is DEDUCED, log 2). -/
def Obligations.EqualBoundsGiveInfiniteScale : Prop :=
  ∀ (a b : Word) (w : Width) (n : Nat) (s t : Bool) (m m' : Nat),
    asF64 a = .fin s m → asF64 b = .fin t m' → feq (asF64 a) (asF64 b) = true →
    let k := rangeScale a b w n
    k.domainBits = 0xFFF0000000000000#64 ∧ k.scaleFwd = 0x7FF0000000000000#64 ∧ k.scaleRev = 0#64 ∧
      k.zeroOffset = 0#64

/-- R78, rows "a > b", "a NaN" and "b NaN": `DOMAIN_BITS`, `SCALE_FWD` and `SCALE_REV` are NaN patterns and
`ZERO_OFFSET = +0.0`. -/
def Obligations.ReversedOrNanBoundsGiveNanScales : Prop :=
  ∀ (a b : Word) (w : Width) (n : Nat),
    (fgt (asF64 a) (asF64 b) = true ∨ isNaN (asF64 a) = true ∨ isNaN (asF64 b) = true) →
    let k := rangeScale a b w n
    isNaN (asF64 k.domainBits) = true ∧ isNaN (asF64 k.scaleFwd) = true ∧ isNaN (asF64 k.scaleRev) = true ∧
      k.zeroOffset = 0#64

/-- R78, the rows with an infinite span: `DOMAIN_BITS = +inf`, `SCALE_FWD = +0.0` and `SCALE_REV = +inf`; `ZERO_OFFSET`
is `+0.0` for a finite lower bound and for one of minus infinity below an upper bound that is not positive, and a NaN for
one of minus infinity below a positive upper bound (that `LN2` is positive and finite is DEDUCED, log 2). -/
def Obligations.InfiniteSpanGivesZeroScale : Prop :=
  ∀ (a b : Word) (w : Width) (n : Nat), fsub (asF64 b) (asF64 a) = .inf false →
    let k := rangeScale a b w n
    k.domainBits = 0x7FF0000000000000#64 ∧ k.scaleFwd = 0#64 ∧ k.scaleRev = 0x7FF0000000000000#64 ∧
      (∀ s m, asF64 a = .fin s m → k.zeroOffset = 0#64) ∧
      (asF64 a = .inf true → fgt (asF64 b) (F64.ofNat 0) = true → isNaN (asF64 k.zeroOffset) = true) ∧
      (asF64 a = .inf true → fgt (asF64 b) (F64.ofNat 0) = false → k.zeroOffset = 0#64)

/-- R29: the two scales of a configuration are exact reciprocals wherever both are finite and nonzero. -/
def Obligations.ScalesAreExactReciprocals : Prop :=
  ∀ (a b : Word) (w : Width) (n : Nat) (s t : Bool) (m m' : Nat),
    asF64 (rangeScale a b w n).scaleFwd = .fin s m → asF64 (rangeScale a b w n).scaleRev = .fin t m' →
    m ≠ 0 → m' ≠ 0 →
    fmul (asF64 (rangeScale a b w n).scaleFwd) (asF64 (rangeScale a b w n).scaleRev) = F64.ofNat 1

/-! ### Encode (spec/41_quantize.md) -/

/-- With no configuration `ENC`, `DEC` of any length and `RDCSR` of any register but `VALID` end with `NotConfigured` and
change nothing else, special values and lengths notwithstanding (R82, R92, R110). -/
def Obligations.UnconfiguredBlockRefuses : Prop :=
  ∀ (s : State) (i : Instr), s.codec = none →
    (i = .enc ∨ (∃ len, i = .dec len) ∨ ∃ idx : BitVec 8, i = .rdcsr idx ∧ 1 ≤ idx.toNat ∧ idx.toNat ≤ 8) →
    exec i s = .next { s with presented := false, responses := s.responses ++ [⟨.notConfigured, 0#8, 0#64⟩] }

/-- `ENC` of an infinity or of any NaN pattern completes under every configuration with the sentinel in byte 0 and zeros
in every other bit (R61, R83, R88). -/
def Obligations.EncOfSpecialValuesGivesTheSentinel : Prop :=
  ∀ (s : State) (k : Codec), s.codec = some k →
    let done (p : Word) : Outcome := .next { s with
      presented := false
      responses := s.responses ++ [⟨.ok, BitVec.ofNat 8 k.fieldWidth.bytes, p⟩] }
    (s.port.x0 = 0x7FF0000000000000#64 → exec .enc s = done 0xC800000000000000#64) ∧
    (s.port.x0 = 0xFFF0000000000000#64 → exec .enc s = done 0xE800000000000000#64) ∧
    (isNaN (asF64 s.port.x0) = true → exec .enc s = done 0xD000000000000000#64)

/-- `ENC` of a finite value below `A` or above `B` ends with `OutOfRange` and changes nothing else (R84, R107). -/
def Obligations.EncOutsideTheRangeFails : Prop :=
  ∀ (s : State) (k : Codec) (b : Bool) (m : Nat), s.codec = some k → asF64 s.port.x0 = .fin b m →
    (flt (asF64 s.port.x0) (asF64 k.a) = true ∨ fgt (asF64 s.port.x0) (asF64 k.b) = true) →
    exec .enc s = .next { s with presented := false, responses := s.responses ++ [⟨.outOfRange, 0#8, 0#64⟩] }

/-- `ENC` of a finite value within the bounds whose floored scaled value is a u64 `d` completes with `W` bytes of
`d mod 2^(8W)`, left-aligned: `RDATA = (d mod 2^(8W)) * 2^(64-8W)` (R85, R86, R87, R88). -/
def Obligations.EncOfARegularValueGivesItsCode : Prop :=
  ∀ (s : State) (k : Codec) (b : Bool) (m d : Nat), s.codec = some k → asF64 s.port.x0 = .fin b m →
    flt (asF64 s.port.x0) (asF64 k.a) = false → fgt (asF64 s.port.x0) (asF64 k.b) = false →
    toU64 (floor64 (fadd (fmul (asF64 k.scaleFwd) (fsub (asF64 s.port.x0) (asF64 k.a))) (asF64 k.zeroOffset))) =
      some d →
    exec .enc s = .next { s with
      presented := false
      responses := s.responses ++ [⟨.ok, BitVec.ofNat 8 k.fieldWidth.bytes,
        BitVec.ofNat 64 (d % 2 ^ (8 * k.fieldWidth.bytes) * 2 ^ (64 - 8 * k.fieldWidth.bytes))⟩] }

/-- `ENC` of a finite value within the bounds whose floored scaled value is a NaN, an infinity, negative or at least 2^64
ends with `CodeUnrepresentable` and changes nothing else (R86, R111). -/
def Obligations.EncOfAnUnrepresentableCodeFails : Prop :=
  ∀ (s : State) (k : Codec) (b : Bool) (m : Nat), s.codec = some k → asF64 s.port.x0 = .fin b m →
    flt (asF64 s.port.x0) (asF64 k.a) = false → fgt (asF64 s.port.x0) (asF64 k.b) = false →
    let rf := floor64 (fadd (fmul (asF64 k.scaleFwd) (fsub (asF64 s.port.x0) (asF64 k.a))) (asF64 k.zeroOffset))
    (isNaN rf = true ∨ isInf rf = true ∨ flt rf (F64.ofNat 0) = true ∨ fge rf (F64.ofNat (2 ^ 64)) = true) →
    exec .enc s =
      .next { s with presented := false, responses := s.responses ++ [⟨.codeUnrepresentable, 0#8, 0#64⟩] }

/-! ### Decode (spec/42_dequantize.md) -/

/-- `DEC` of another length than the field width ends with `LengthMismatch`, whatever the field holds, and changes
nothing else (R93, R108). -/
def Obligations.DecOfAnotherLengthFails : Prop :=
  ∀ (s : State) (k : Codec) (len : BitVec 8), s.codec = some k → len.toNat ≠ k.fieldWidth.bytes →
    exec (.dec len) s =
      .next { s with presented := false, responses := s.responses ++ [⟨.lengthMismatch, 0#8, 0#64⟩] }

/-- `DEC` of the field width with a sentinel in byte 0 completes with the special value, whatever the other bytes and the
bounds are; for `0xD0` the pattern is some NaN (R62, R95, R99). -/
def Obligations.DecOfASentinelGivesTheSpecialValue : Prop :=
  ∀ (s : State) (k : Codec) (len : BitVec 8), s.codec = some k → len.toNat = k.fieldWidth.bytes →
    let done (p : Word) : Outcome :=
      .next { s with presented := false, responses := s.responses ++ [⟨.ok, 8#8, p⟩] }
    (s.port.x0.toNat / 2 ^ 56 = 0xC8 → exec (.dec len) s = done 0x7FF0000000000000#64) ∧
    (s.port.x0.toNat / 2 ^ 56 = 0xE8 → exec (.dec len) s = done 0xFFF0000000000000#64) ∧
    (s.port.x0.toNat / 2 ^ 56 = 0xD0 → ∃ p, isNaN (asF64 p) = true ∧ exec (.dec len) s = done p)

/-- `DEC` of a regular field of `W` bytes, the unsigned code `l` in the top `8W` bits of `x[0]`, whose value is neither
below `A` nor above `B` (a NaN is neither) completes with that value's pattern, some NaN pattern for a NaN, and changes
no register (R94, R96, R97, R98, R99). -/
def Obligations.DecOfARegularFieldGivesItsValue : Prop :=
  ∀ (s : State) (k : Codec) (len : BitVec 8), s.codec = some k → len.toNat = k.fieldWidth.bytes →
    s.port.x0.toNat / 2 ^ 56 ≠ 0xC8 → s.port.x0.toNat / 2 ^ 56 ≠ 0xE8 → s.port.x0.toNat / 2 ^ 56 ≠ 0xD0 →
    let l := s.port.x0.toNat / 2 ^ (64 - 8 * k.fieldWidth.bytes)
    let v := fadd (fmul (asF64 k.scaleRev) (fsub (u64ToF64 l) (asF64 k.zeroOffset))) (asF64 k.a)
    flt v (asF64 k.a) = false → fgt v (asF64 k.b) = false →
    ∃ (t : State) (n : NanPattern), exec (.dec len) s = .next t ∧
      t.responses = s.responses ++ [⟨.ok, 8#8, bitsOf n v⟩] ∧ t.codec = s.codec ∧ t.presented = false ∧
      t.port = s.port ∧ t.resetLine = s.resetLine ∧ t.host = s.host

/-- `DEC` of a regular field whose value is below `A` or above `B` ends with `DecodedOutOfRange` and changes nothing else
(R98, R109). -/
def Obligations.DecOutsideTheRangeFails : Prop :=
  ∀ (s : State) (k : Codec) (len : BitVec 8), s.codec = some k → len.toNat = k.fieldWidth.bytes →
    s.port.x0.toNat / 2 ^ 56 ≠ 0xC8 → s.port.x0.toNat / 2 ^ 56 ≠ 0xE8 → s.port.x0.toNat / 2 ^ 56 ≠ 0xD0 →
    let l := s.port.x0.toNat / 2 ^ (64 - 8 * k.fieldWidth.bytes)
    let v := fadd (fmul (asF64 k.scaleRev) (fsub (u64ToF64 l) (asF64 k.zeroOffset))) (asF64 k.a)
    (flt v (asF64 k.a) = true ∨ fgt v (asF64 k.b) = true) →
    exec (.dec len) s =
      .next { s with presented := false, responses := s.responses ++ [⟨.decodedOutOfRange, 0#8, 0#64⟩] }

/-- `DEC` ignores the bits of `x[0]` below the field (R94, R42): registers agreeing in the top `8W` bits end the command
alike. -/
def Obligations.DecIgnoresBitsBelowTheField : Prop :=
  ∀ (s t : State) (k : Codec) (len : BitVec 8) (y : Word), s.codec = some k →
    y.toNat / 2 ^ (64 - 8 * k.fieldWidth.bytes) = s.port.x0.toNat / 2 ^ (64 - 8 * k.fieldWidth.bytes) →
    exec (.dec len) s = .next t →
    exec (.dec len) { s with port := { s.port with x0 := y } } = .next { t with port := { s.port with x0 := y } }

/-- Special values survive a round trip under every configuration: the field `ENC` gives for an infinity or a NaN,
presented to `DEC` with its own length, decodes to that infinity or to a NaN (R83, R95; the source's property 2). -/
def Obligations.SpecialValuesSurviveARoundTrip : Prop :=
  ∀ (s t : State) (rlen : BitVec 8) (rdata : Word), s.valid = true →
    (isNaN (asF64 s.port.x0) = true ∨ isInf (asF64 s.port.x0) = true) →
    exec .enc s = .next t → t.responses = s.responses ++ [⟨.ok, rlen, rdata⟩] →
    ∃ (u : State) (p : Word),
      exec (.dec rlen) { t with port := { t.port with x0 := rdata } } = .next u ∧
      u.responses = t.responses ++ [⟨.ok, 8#8, p⟩] ∧ asF64 p = asF64 s.port.x0

/-- A round trip (R90, whose exact arithmetic binary64 attains here): over a range from `+0.0` with a zero offset
of `+0.0` and reciprocal power-of-two scales, the field of a nonnegative value in range whose code is below 2^53, fits
the field and is no sentinel decodes with `OK` to a value `y` with `y ≤ v < y + SCALE_REV`. Magnitudes are in units of
2^-1074: `SCALE_FWD = 2^(p-1074)` and `SCALE_REV = 2^(q-1074)` with `p + q = 2148`. -/
def Obligations.RoundTripFromZeroLosesLessThanOneStep : Prop :=
  ∀ (s t : State) (k : Codec) (m p q d : Nat), s.codec = some k →
    k.a = 0#64 → k.zeroOffset = 0#64 → asF64 k.scaleFwd = .fin false (2 ^ p) → asF64 k.scaleRev = .fin false (2 ^ q) →
    p + q = 2148 → asF64 s.port.x0 = .fin false m → fgt (asF64 s.port.x0) (asF64 k.b) = false →
    d = m * 2 ^ p / F64.unit / F64.unit → d < 2 ^ 53 → d < 0xC8 * 2 ^ (8 * k.fieldWidth.bytes - 8) →
    exec .enc s = .next t →
    ∃ (u : State) (rdata y : Word) (m' : Nat),
      t.responses = s.responses ++ [⟨.ok, BitVec.ofNat 8 k.fieldWidth.bytes, rdata⟩] ∧
      exec (.dec (BitVec.ofNat 8 k.fieldWidth.bytes)) { t with port := { t.port with x0 := rdata } } = .next u ∧
      u.responses = t.responses ++ [⟨.ok, 8#8, y⟩] ∧ asF64 y = .fin false m' ∧ m' ≤ m ∧ m < m' + 2 ^ q

/-! ### Register access (spec/43_csr_access.md) -/

/-- `RDCSR 0` completes in every state with `VALID`, zero-extended (R101, R102). -/
def Obligations.RdcsrOfValidAlwaysReads : Prop :=
  ∀ s : State, exec (.rdcsr 0#8) s = .next { s with
    presented := false
    responses := s.responses ++ [⟨.ok, 8#8, if s.valid then 1#64 else 0#64⟩] }

/-- `RDCSR` of an index of R22 completes on a configured block with the stored register, in the format of R102, and
changes nothing else (R101, R102). -/
def Obligations.RdcsrReadsTheRegisterOfItsIndex : Prop :=
  ∀ (s : State) (k : Codec), s.codec = some k →
    let done (p : Word) : Outcome :=
      .next { s with presented := false, responses := s.responses ++ [⟨.ok, 8#8, p⟩] }
    exec (.rdcsr 0x01#8) s = done k.a ∧ exec (.rdcsr 0x02#8) s = done k.b ∧
      exec (.rdcsr 0x03#8) s = done (BitVec.ofNat 64 k.fieldWidth.bytes) ∧
      exec (.rdcsr 0x04#8) s = done k.domainBits ∧ exec (.rdcsr 0x05#8) s = done (BitVec.ofNat 64 k.codeBits) ∧
      exec (.rdcsr 0x06#8) s = done k.scaleFwd ∧ exec (.rdcsr 0x07#8) s = done k.scaleRev ∧
      exec (.rdcsr 0x08#8) s = done k.zeroOffset

/-- `RDCSR` of an index above 8 is an illegal command in every state (R103, R112; its word decodes to nothing, R55, and
the instruction itself ends the same way, log 15). -/
def Obligations.RdcsrOfAnUndefinedIndexIsIllegal : Prop :=
  ∀ (s : State) (idx : BitVec 8), 8 < idx.toNat →
    decode (encode (.rdcsr idx)) = .error .csrIndexUndefined ∧
    exec (.rdcsr idx) s =
      .next { s with presented := false, responses := s.responses ++ [⟨.illegalCommand, 0#8, 0#64⟩] }

/-- What a successful `CFG` was given reads back bit for bit through `RDCSR`: the bounds as presented, NaN patterns
included, the width and `8W - 1` (R24, R25, R27, R102). -/
def Obligations.ConfiguredBoundsReadBack : Prop :=
  ∀ (s t : State) (w : Width) (port : Command), s.port.x2 = BitVec.ofNat 64 w.bytes → exec .cfg s = .next t →
    let read (idx : BitVec 8) (p : Word) : Prop :=
      ∃ u, exec (.rdcsr idx) { t with port := port } = .next u ∧ u.responses = t.responses ++ [⟨.ok, 8#8, p⟩]
    read 0#8 1#64 ∧ read 1#8 s.port.x0 ∧ read 2#8 s.port.x1 ∧ read 3#8 (BitVec.ofNat 64 w.bytes) ∧
      read 5#8 (BitVec.ofNat 64 (8 * w.bytes - 1))

/-! ### Numeric primitives (spec/00_scope.md section 5) -/

/-- Every pattern that is no NaN is the pattern of its datum (R10). -/
def Obligations.PatternsAreThoseOfTheirData : Prop :=
  ∀ (b : BitVec 64) (n : NanPattern), isNaN (asF64 b) = false → bitsOf n (asF64 b) = b

/-- Every datum binary64 holds is the datum of its pattern, and every pattern's datum is one binary64 holds; a NaN
pattern reads as a NaN (R10). -/
def Obligations.DataAreThoseOfTheirPatterns : Prop :=
  (∀ (f : F64) (n : NanPattern), f.isBinary64 → asF64 (bitsOf n f) = f) ∧ ∀ b : BitVec 64, (asF64 b).isBinary64

/-- Rounding is to nearest, ties to even, and each primitive on finite data rounds its exact result once, overflow
giving an infinity of the result's sign (R11, R16). The exact sum or difference `z` is in units of 2^-1074, the exact
product, quotient and integer are brought to them; an exact zero sum is `-0.0` only for two negative operands, and a zero
divisor gives an infinity, or a NaN for a zero dividend. -/
def Obligations.RoundingIsToNearestEven : Prop :=
  (∀ num den : Nat, 0 < den → nearestEven num den (roundMag num den)) ∧
  (∀ (s t : Bool) (m n : Nat),
    let z := signedMag s m + signedMag t n
    (z = 0 → fadd (.fin s m) (.fin t n) = .fin (s && t) 0) ∧
    (z ≠ 0 → (fadd (.fin s m) (.fin t n)).isRounding (decide (z < 0)) z.natAbs 1)) ∧
  (∀ (s t : Bool) (m n : Nat),
    let z := signedMag s m - signedMag t n
    (z = 0 → fsub (.fin s m) (.fin t n) = .fin (s && !t) 0) ∧
    (z ≠ 0 → (fsub (.fin s m) (.fin t n)).isRounding (decide (z < 0)) z.natAbs 1)) ∧
  (∀ (s t : Bool) (m n : Nat), (fmul (.fin s m) (.fin t n)).isRounding (s ^^ t) (m * n) F64.unit) ∧
  (∀ (s t : Bool) (m n : Nat),
    (n ≠ 0 → (fdiv (.fin s m) (.fin t n)).isRounding (s ^^ t) (m * F64.unit) n) ∧
    (n = 0 → m ≠ 0 → fdiv (.fin s m) (.fin t n) = .inf (s ^^ t)) ∧
    (n = 0 → m = 0 → fdiv (.fin s m) (.fin t n) = .nan)) ∧
  (∀ n : Nat, n < 2 ^ 64 → (u64ToF64 n).isRounding false (n * F64.unit) 1)

/-- Every primitive gives a datum binary64 holds: from data binary64 holds (R11, R13, R14, R15), and `U64ToF64` from every
integer below 2^64 (R16). -/
def Obligations.PrimitivesGiveBinary64 : Prop :=
  (∀ x y : F64, x.isBinary64 → y.isBinary64 →
    (fadd x y).isBinary64 ∧ (fsub x y).isBinary64 ∧ (fmul x y).isBinary64 ∧ (fdiv x y).isBinary64 ∧
    (floor64 x).isBinary64 ∧ (ceil64 x).isBinary64 ∧ (LN x).isBinary64 ∧ (LOG2 x).isBinary64 ∧ (POW2 x).isBinary64) ∧
  (∀ n : Nat, n < 2 ^ 64 → (u64ToF64 n).isBinary64)

/-- `floor64` and `ceil64` of a finite datum are the greatest integer not above it and the least not below it, the sign
kept (R13); the other data map to themselves. -/
def Obligations.FloorAndCeilAreTheNearestIntegers : Prop :=
  (∀ (b : Bool) (m : Nat), ∃ f c : Nat, floor64 (.fin b m) = .fin b (f * F64.unit) ∧
      ceil64 (.fin b m) = .fin b (c * F64.unit) ∧
      signedMag b (f * F64.unit) ≤ signedMag b m ∧ signedMag b m < signedMag b (f * F64.unit) + F64.unit ∧
      signedMag b m ≤ signedMag b (c * F64.unit) ∧ signedMag b (c * F64.unit) < signedMag b m + F64.unit) ∧
  (∀ b : Bool, floor64 (.inf b) = .inf b ∧ ceil64 (.inf b) = .inf b) ∧ floor64 .nan = .nan ∧ ceil64 .nan = .nan

/-- `POW2` of an integer is exact from -1074 to 1023, `+inf` above and `+0.0` below; NaN and the infinities as R15 says.
The magnitude of `2^k` is `2^(1074+k)`. -/
def Obligations.Pow2OfIntegersIsExact : Prop :=
  (∀ n : Nat, n ≤ 1023 → POW2 (.fin false (n * F64.unit)) = .fin false (2 ^ (1074 + n))) ∧
  (∀ n : Nat, 1024 ≤ n → POW2 (.fin false (n * F64.unit)) = .inf false) ∧
  (∀ n : Nat, n ≤ 1074 → POW2 (.fin true (n * F64.unit)) = .fin false (2 ^ (1074 - n))) ∧
  (∀ n : Nat, 1075 ≤ n → POW2 (.fin true (n * F64.unit)) = .fin false 0) ∧
  POW2 .nan = .nan ∧ POW2 (.inf false) = .inf false ∧ POW2 (.inf true) = .fin false 0

/-- Every call of `POW2` in `Configure` passes an integer, an infinity or a NaN, so its open value is never used (R15,
R68). -/
def Obligations.ScaleExponentsAreIntegers : Prop :=
  ∀ (a b : Word) (w : Width),
    (fsub (F64.ofNat (codeBitsOf w)) (domainBitsOf (asF64 a) (asF64 b))).integralOrSpecial ∧
    (fsub (domainBitsOf (asF64 a) (asF64 b)) (F64.ofNat (codeBitsOf w))).integralOrSpecial

/-- `U64ToF64` is exact up to 2^53 (R16). -/
def Obligations.SmallIntegersConvertExactly : Prop :=
  ∀ n : Nat, n ≤ 2 ^ 53 → u64ToF64 n = .fin false (n * F64.unit)

/-- `LN` takes the values every model must respect (R14). -/
def Obligations.LnRespectsItsSpecialValues : Prop :=
  LN (.inf false) = .inf false ∧ (∀ b, LN (.fin b 0) = .inf true) ∧ LN (.inf true) = .nan ∧
    (∀ m, m ≠ 0 → LN (.fin true m) = .nan) ∧ LN .nan = .nan ∧ LN (F64.ofNat 1) = F64.ofNat 0

/-- A datum converts to an integer exactly where it is one in the range of a u64, negative zero being 0 (R18). -/
def Obligations.OnlyU64IntegersConvert : Prop :=
  ∀ (f : F64) (d : Nat), toU64 f = some d ↔ d < 2 ^ 64 ∧ ∃ b, f = .fin b (d * F64.unit) ∧ (b = true → d = 0)

/-- `BE_pack` and `BE_unpack` are inverse, `BE_pack` reducing modulo `2^(8n)`, and a left-aligned field reads back byte by
byte (R17, R40). -/
def Obligations.PackedFieldsUnpack : Prop :=
  (∀ d n : Nat, beUnpack (bePack d n) = d % 2 ^ (8 * n) ∧ (bePack d n).length = n) ∧
  (∀ bs : List Byte, bs.length ≤ 8 → fieldBytes (alignLeft bs) bs.length = bs) ∧
  ∀ bs : List Byte, bePack (beUnpack bs) bs.length = bs
end

