-- ==== Sys2Proof/Laws/Float.lean ====
section
/-! SUPPORT. What the numeric primitives give on NaN, infinities and zeros (R11 to R15), and the shape of the free
values of `LN` (R14; logs 1 and 2). -/

namespace Sys2Proof

set_option exponentiation.threshold 4096 in
/-- The magnitude of 1.0 as a power with a variable exponent, so that elaboration need not write the number out. -/
theorem unit_eq_pow {e : Nat} (h : e = 1074) : F64.unit = 2 ^ e := by subst h; unfold F64.unit; rfl

set_option exponentiation.threshold 4096 in
/-- The magnitude of 2^1024 as a power with a variable exponent. -/
theorem limit_eq_pow {e : Nat} (h : e = 2098) : F64.limit = 2 ^ e := by subst h; unfold F64.limit; rfl

theorem unit_pos : 0 < F64.unit := by
  obtain ⟨e, h⟩ : ∃ e, e = 1074 := ⟨_, rfl⟩
  rw [unit_eq_pow h]; exact Nat.two_pow_pos e

theorem limit_pos : 0 < F64.limit := by
  obtain ⟨e, h⟩ : ∃ e, e = 2098 := ⟨_, rfl⟩
  rw [limit_eq_pow h]; exact Nat.two_pow_pos e

theorem unit_ne_zero : F64.unit ≠ 0 := Nat.ne_of_gt unit_pos

section NaN
variable (x : F64)

@[simp] theorem fneg_nan : fneg .nan = .nan := rfl
@[simp] theorem fadd_nan_left : fadd .nan x = .nan := rfl
@[simp] theorem fadd_nan_right : fadd x .nan = .nan := by cases x <;> rfl
@[simp] theorem fsub_nan_left : fsub .nan x = .nan := rfl
@[simp] theorem fsub_nan_right : fsub x .nan = .nan := by cases x <;> rfl
@[simp] theorem fmul_nan_left : fmul .nan x = .nan := rfl
@[simp] theorem fmul_nan_right : fmul x .nan = .nan := by cases x <;> rfl
@[simp] theorem fdiv_nan_left : fdiv .nan x = .nan := rfl
@[simp] theorem fdiv_nan_right : fdiv x .nan = .nan := by cases x <;> rfl
@[simp] theorem floor64_nan : floor64 .nan = .nan := rfl
@[simp] theorem ceil64_nan : ceil64 .nan = .nan := rfl
@[simp] theorem LN_nan : LN .nan = .nan := rfl
@[simp] theorem LOG2_nan : LOG2 .nan = .nan := rfl
@[simp] theorem POW2_nan : POW2 .nan = .nan := rfl
@[simp] theorem flt_nan_left : flt .nan x = false := rfl
@[simp] theorem flt_nan_right : flt x .nan = false := by cases x <;> rfl
@[simp] theorem fgt_nan_left : fgt .nan x = false := flt_nan_right x
@[simp] theorem fgt_nan_right : fgt x .nan = false := rfl
@[simp] theorem fle_nan_left : fle .nan x = false := rfl
@[simp] theorem fle_nan_right : fle x .nan = false := by cases x <;> rfl
@[simp] theorem feq_nan_left : feq .nan x = false := by cases x <;> rfl
@[simp] theorem feq_nan_right : feq x .nan = false := by cases x <;> rfl

end NaN

section Infinities

@[simp] theorem floor64_inf (s : Bool) : floor64 (.inf s) = .inf s := rfl
@[simp] theorem ceil64_inf (s : Bool) : ceil64 (.inf s) = .inf s := rfl
@[simp] theorem fadd_inf_fin (s t : Bool) (n : Nat) : fadd (.inf s) (.fin t n) = .inf s := rfl
@[simp] theorem fadd_fin_inf (s t : Bool) (m : Nat) : fadd (.fin s m) (.inf t) = .inf t := rfl
@[simp] theorem fsub_inf_fin (s t : Bool) (n : Nat) : fsub (.inf s) (.fin t n) = .inf s := rfl
@[simp] theorem fsub_fin_inf (s t : Bool) (m : Nat) : fsub (.fin s m) (.inf t) = .inf (!t) := rfl
@[simp] theorem fdiv_inf_fin (s t : Bool) (n : Nat) : fdiv (.inf s) (.fin t n) = .inf (s ^^ t) := rfl
@[simp] theorem fdiv_fin_inf (s t : Bool) (m : Nat) : fdiv (.fin s m) (.inf t) = .fin (s ^^ t) 0 := rfl
@[simp] theorem POW2_inf (s : Bool) : POW2 (.inf s) = if s then .fin false 0 else .inf false := rfl

end Infinities

/-! ### Rounding zero, and the exact cases it settles -/

@[simp] theorem roundMag_zero (den : Nat) : roundMag 0 den = 0 := by
  simp [roundMag]

@[simp] theorem roundF64_zero (s : Bool) (den : Nat) : roundF64 s 0 den = .fin s 0 := by
  have h : ¬ F64.limit ≤ 0 := Nat.not_le.mpr limit_pos
  simp [roundF64, h]

/-- A zero divided by a nonzero finite datum is a zero (R11). -/
theorem fdiv_zero_fin (s t : Bool) {n : Nat} (hn : n ≠ 0) : fdiv (.fin s 0) (.fin t n) = .fin (s ^^ t) 0 := by
  simp [fdiv, hn]

/-! ### The logarithm -/

set_option exponentiation.threshold 4096 in
/-- `LN2` is a positive finite datum. -/
theorem ln2_eq_fin : ∃ m, m ≠ 0 ∧ ln2 = .fin false m := by
  refine ⟨_, ?_, ln2.eq_1⟩
  exact Nat.mul_ne_zero (Nat.ne_of_gt (Nat.add_pos_left (Nat.two_pow_pos 52) _)) (Nat.ne_of_gt (Nat.two_pow_pos _))

theorem LN_two : LN (F64.ofNat 2) = ln2 := by
  have h := unit_pos
  have h1 : 2 * F64.unit ≠ 0 := by omega
  have h2 : 2 * F64.unit ≠ F64.unit := by omega
  simp [LN, F64.ofNat, unit_ne_zero, h2]

theorem LOG2_eq (x : F64) : LOG2 x = fdiv (LN x) ln2 := by rw [LOG2, LN_two]

@[simp] theorem LN_inf (s : Bool) : LN (.inf s) = if s then .nan else .inf false := rfl

@[simp] theorem LN_zero (s : Bool) : LN (.fin s 0) = .inf true := rfl

theorem LN_negative {m : Nat} (h : m ≠ 0) : LN (.fin true m) = .nan := by simp [LN, h]

theorem LN_one : LN (.fin false F64.unit) = .fin false 0 := by simp [LN, unit_ne_zero]

/-- `LOG2` of a zero is minus infinity (R14, R26). -/
theorem LOG2_zero (s : Bool) : LOG2 (.fin s 0) = .inf true := by
  obtain ⟨m, -, hm⟩ := ln2_eq_fin
  rw [LOG2_eq, hm]; rfl

/-- `LOG2` of plus infinity is plus infinity (R14, R26). -/
theorem LOG2_inf : LOG2 (.inf false) = .inf false := by
  obtain ⟨m, -, hm⟩ := ln2_eq_fin
  rw [LOG2_eq, hm]; rfl

/-- `LOG2` of 1.0 is `+0.0` (R14). -/
theorem LOG2_one : LOG2 (.fin false F64.unit) = .fin false 0 := by
  obtain ⟨m, hm0, hm⟩ := ln2_eq_fin
  rw [LOG2_eq, LN_one, hm, fdiv_zero_fin _ _ hm0]; rfl

/-- `LOG2` of a negative value is a NaN (R14, R26). -/
theorem LOG2_negative {m : Nat} (h : m ≠ 0) : LOG2 (.fin true m) = .nan := by
  rw [LOG2_eq, LN_negative h]; rfl

@[simp] theorem LOG2_neg_inf : LOG2 (.inf true) = .nan := rfl

end Sys2Proof
end

