-- ==== Sys2Proof/Laws/Operands.lean ====
section
/-! SUPPORT. The packing of a field's bytes, one byte at a time (R17, R40), and byte 0 of a field as a number. -/

namespace Sys2Proof.Machine

theorem bePack_length (d n : Nat) : (bePack d n).length = n := by simp [bePack]

theorem bePack_zero (d : Nat) : bePack d 0 = [] := rfl

/-- The most significant byte of a packed field, and the rest. -/
theorem bePack_succ (d n : Nat) :
    bePack d (n + 1) = BitVec.ofNat 8 (d / 2 ^ (8 * n) % 256) :: bePack d n := by
  unfold bePack
  rw [List.range_succ_eq_map, List.map_cons, List.map_map]
  refine congrArg₂ _ (by simp) (List.map_congr_left fun i hi => ?_)
  have := List.mem_range.1 hi
  simp only [Function.comp]
  rw [show n + 1 - 1 - (i + 1) = n - 1 - i by omega]

@[simp] theorem beUnpack_nil : beUnpack [] = 0 := rfl

theorem beUnpack_cons (b : Byte) (bs : List Byte) :
    beUnpack (b :: bs) = b.toNat * 2 ^ (8 * bs.length) + beUnpack bs := rfl

/-- Byte 0 of a left-aligned field is the top byte of its register. -/
theorem fieldByte_zero (x : BitVec 64) (b : Byte) : fieldByte x 0 = b ↔ x.toNat / 2 ^ 56 = b.toNat := by
  rw [← BitVec.toNat_inj]
  simp only [fieldByte, BitVec.extractLsb'_toNat, Nat.shiftRight_eq_div_pow]
  have := x.isLt
  omega

/-- What a sentinel byte is (R62, R95). -/
theorem sentinelBits_cases (b : Byte) :
    (b = 0xC8#8 ∧ sentinelBits b = some 0x7FF0000000000000#64) ∨
    (b = 0xE8#8 ∧ sentinelBits b = some 0xFFF0000000000000#64) ∨
    (b = 0xD0#8 ∧ sentinelBits b = some Config.decodeNan.bits) ∨
    (b ≠ 0xC8#8 ∧ b ≠ 0xE8#8 ∧ b ≠ 0xD0#8 ∧ sentinelBits b = none) := by
  by_cases h1 : b = 0xC8#8
  · exact .inl ⟨h1, by simp [sentinelBits, h1]⟩
  by_cases h2 : b = 0xE8#8
  · exact .inr (.inl ⟨h2, by simp [sentinelBits, h2]⟩)
  by_cases h3 : b = 0xD0#8
  · exact .inr (.inr (.inl ⟨h3, by simp [sentinelBits, h3]⟩))
  · exact .inr (.inr (.inr ⟨h1, h2, h3, by simp [sentinelBits, h1, h2, h3]⟩))

end Sys2Proof.Machine
end

