-- ==== Sys2Proof/Laws/State.lean ====
section
/-! SUPPORT. One lemma per field per update of the state, and what each small update is as a record. -/

namespace Sys2Proof.Machine

section Deliver
variable (r : Response) (s : State)

@[simp] theorem deliver_codec : (deliver r s).codec = s.codec := rfl
@[simp] theorem deliver_port : (deliver r s).port = s.port := rfl
@[simp] theorem deliver_presented : (deliver r s).presented = false := rfl
@[simp] theorem deliver_resetLine : (deliver r s).resetLine = s.resetLine := rfl
@[simp] theorem deliver_responses : (deliver r s).responses = s.responses ++ [r] := rfl
@[simp] theorem deliver_host : (deliver r s).host = s.host := rfl
@[simp] theorem deliver_draws : (deliver r s).draws = s.draws := rfl

end Deliver

section Commit
variable (k : Codec) (s : State)

@[simp] theorem commit_codec : (commit k s).codec = some k := rfl
@[simp] theorem commit_port : (commit k s).port = s.port := rfl
@[simp] theorem commit_presented : (commit k s).presented = s.presented := rfl
@[simp] theorem commit_resetLine : (commit k s).resetLine = s.resetLine := rfl
@[simp] theorem commit_responses : (commit k s).responses = s.responses := rfl
@[simp] theorem commit_host : (commit k s).host = s.host := rfl
@[simp] theorem commit_draws : (commit k s).draws = s.draws + 4 := rfl

end Commit

section Reset
variable (s : State)

@[simp] theorem applyReset_codec : (applyReset s).codec = none := rfl
@[simp] theorem applyReset_port : (applyReset s).port = s.port := rfl
@[simp] theorem applyReset_presented : (applyReset s).presented = false := rfl
@[simp] theorem applyReset_resetLine : (applyReset s).resetLine = false := rfl
@[simp] theorem applyReset_responses : (applyReset s).responses = s.responses := rfl
@[simp] theorem applyReset_host : (applyReset s).host = s.host := rfl
@[simp] theorem applyReset_draws : (applyReset s).draws = s.draws := rfl

end Reset

section Present
variable (c : Command) (s : State)

@[simp] theorem presentCommand_codec : (presentCommand c s).codec = s.codec := rfl
@[simp] theorem presentCommand_port : (presentCommand c s).port = c := rfl
@[simp] theorem presentCommand_presented : (presentCommand c s).presented = true := rfl
@[simp] theorem presentCommand_resetLine : (presentCommand c s).resetLine = s.resetLine := rfl
@[simp] theorem presentCommand_responses : (presentCommand c s).responses = s.responses := rfl
@[simp] theorem presentCommand_host : (presentCommand c s).host = s.host := rfl
@[simp] theorem presentCommand_draws : (presentCommand c s).draws = s.draws := rfl

end Present

section PresentWord
variable (w : CmdWord) (s : State)

@[simp] theorem presentWord_codec : (presentWord w s).codec = s.codec := rfl
@[simp] theorem presentWord_cmd : (presentWord w s).port.cmd = w := rfl
@[simp] theorem presentWord_x0 : (presentWord w s).port.x0 = s.port.x0 := rfl
@[simp] theorem presentWord_x1 : (presentWord w s).port.x1 = s.port.x1 := rfl
@[simp] theorem presentWord_x2 : (presentWord w s).port.x2 = s.port.x2 := rfl
@[simp] theorem presentWord_presented : (presentWord w s).presented = true := rfl
@[simp] theorem presentWord_resetLine : (presentWord w s).resetLine = false := rfl
@[simp] theorem presentWord_responses : (presentWord w s).responses = s.responses := rfl
@[simp] theorem presentWord_host : (presentWord w s).host = s.host := rfl
@[simp] theorem presentWord_draws : (presentWord w s).draws = s.draws := rfl

end PresentWord

end Sys2Proof.Machine
end

