-- ==== Sys2Proof/Laws/Ops.lean ====
section
/-! SUPPORT. For each shared operation and each instruction, once, what it can do. -/

namespace Sys2Proof.Machine

theorem respondOk_eq (rlen : BitVec 8) (rdata : Word) (s : State) :
    respondOk rlen rdata s = .next (deliver ⟨.ok, rlen, rdata⟩ s) := rfl

theorem raise_eq (st : Status) (s : State) : raise st s = .next (deliver ⟨st, 0#8, 0#64⟩ s) := rfl

theorem configure_eq (a b : Word) (w : Width) (s : State) :
    configure a b w s = .next (deliver ⟨.ok, 0#8, 0#64⟩ (commit (rangeScale a b w s.draws) s)) := rfl

theorem respondReal_eq (v : F64) (s : State) :
    respondReal v s =
      .next (deliver ⟨.ok, 8#8, bitsOf (Config.nanDraw s.draws) v⟩ { s with draws := s.draws + 1 }) := rfl

/-! ### Widths -/

theorem widthOfWord_bytes (w : Width) : widthOfWord (BitVec.ofNat 64 w.bytes) = some w := by
  cases w <;> rfl

/-- The width test accepts a word exactly where it is the byte count of a width (R69). -/
theorem widthOfWord_eq_some {x : BitVec 64} {w : Width} :
    widthOfWord x = some w ↔ x = BitVec.ofNat 64 w.bytes := by
  constructor
  · intro h
    unfold widthOfWord at h
    split at h
    · cases h; assumption
    split at h
    · cases h; assumption
    split at h
    · cases h; assumption
    split at h
    · cases h; assumption
    · cases h
  · rintro rfl; exact widthOfWord_bytes w

theorem bytes_pos (w : Width) : 0 < w.bytes := by cases w <;> decide

theorem bytes_le (w : Width) : w.bytes ≤ 8 := by cases w <;> decide

/-! ### Register reads -/

@[simp] theorem readCsr_some {s : State} {k : Codec} (h : s.codec = some k) (r : Csr) :
    readCsr s r = some (k.read r) := by simp [readCsr, h]

@[simp] theorem readCsr_none {s : State} (h : s.codec = none) (r : Csr) :
    readCsr s r = if r = .valid then some 0#64 else none := by simp [readCsr, h]

/-! ### What each instruction can do -/

/-- `CFG` ends in `InvalidFieldWidth` or commits the configuration of its operands (R67). -/
theorem execCfg_cases (s : State) :
    (widthOfWord s.port.x2 = none ∧ execCfg s = raise .invalidFieldWidth s) ∨
    (∃ w, widthOfWord s.port.x2 = some w ∧ execCfg s = configure s.port.x0 s.port.x1 w s) := by
  unfold execCfg widthOperand minOperand maxOperand
  cases h : widthOfWord s.port.x2 with
  | none => exact .inl ⟨rfl, rfl⟩
  | some w => exact .inr ⟨w, rfl, rfl⟩

/-- `byteLen` of the operands presented (R73). -/
abbrev cfgpByteLen (s : State) : F64 := byteLenOf (asF64 s.port.x0) (asF64 s.port.x1) (asF64 s.port.x2)

/-- `CFGP` ends in the status of the width selection or commits the configuration of the width it selects (R73). -/
theorem execCfgp_cases (s : State) :
    (∃ st, selectWidth (cfgpByteLen s) = .error st ∧ execCfgp s = raise st s) ∨
    (∃ w, selectWidth (cfgpByteLen s) = .ok w ∧ execCfgp s = configure s.port.x0 s.port.x1 w s) := by
  unfold execCfgp precisionOperand minOperand maxOperand cfgpByteLen
  cases h : selectWidth (byteLenOf (asF64 s.port.x0) (asF64 s.port.x1) (asF64 s.port.x2)) with
  | error st => exact .inl ⟨st, rfl, rfl⟩
  | ok w => exact .inr ⟨w, rfl, rfl⟩

/-- The width selection fails only with its two statuses (R73). -/
theorem selectWidth_error {L : F64} {st : Status} (h : selectWidth L = .error st) :
    st = .precisionUnrepresentable ∨ st = .invalidFieldWidth := by
  unfold selectWidth at h
  split at h
  · cases h; exact .inl rfl
  · split at h
    · cases h; exact .inr rfl
    · cases h

/-- `ENC` ends in one of its three errors, a sentinel field or the field of a code (R81). -/
theorem execEnc_cases (s : State) :
    (s.codec = none ∧ execEnc s = raise .notConfigured s) ∨
    (∃ k, s.codec = some k ∧
      ((∃ b, sentinelOf (asF64 s.port.x0) = some b ∧
          execEnc s = respondField k.fieldWidth (b.toNat * 2 ^ (8 * (k.fieldWidth.bytes - 1))) s) ∨
       (sentinelOf (asF64 s.port.x0) = none ∧ outsideRange k (asF64 s.port.x0) = true ∧
          execEnc s = raise .outOfRange s) ∨
       (sentinelOf (asF64 s.port.x0) = none ∧ outsideRange k (asF64 s.port.x0) = false ∧
          toU64 (quantized k (asF64 s.port.x0)) = none ∧ execEnc s = raise .codeUnrepresentable s) ∨
       (sentinelOf (asF64 s.port.x0) = none ∧ outsideRange k (asF64 s.port.x0) = false ∧
          ∃ d, toU64 (quantized k (asF64 s.port.x0)) = some d ∧
            execEnc s = respondField k.fieldWidth (d % 2 ^ (8 * k.fieldWidth.bytes)) s))) := by
  unfold execEnc valueOperand
  cases hk : s.codec with
  | none => exact .inl ⟨rfl, rfl⟩
  | some k =>
    refine .inr ⟨k, rfl, ?_⟩
    cases hb : sentinelOf (asF64 s.port.x0) with
    | some b => exact .inl ⟨b, rfl, rfl⟩
    | none =>
      refine .inr ?_
      cases ho : outsideRange k (asF64 s.port.x0) with
      | true => exact .inl ⟨rfl, rfl, by simp [ho]⟩
      | false =>
        refine .inr ?_
        cases hd : toU64 (quantized k (asF64 s.port.x0)) with
        | none => exact .inl ⟨rfl, rfl, rfl, by simp [ho, hd]⟩
        | some d => exact .inr ⟨rfl, rfl, d, rfl, by simp [ho, hd]⟩

/-- `DEC` ends in one of its three errors, the value of a sentinel or the value of a code (R91). -/
theorem execDec_cases (len : BitVec 8) (s : State) :
    (s.codec = none ∧ execDec len s = raise .notConfigured s) ∨
    (∃ k, s.codec = some k ∧
      ((len.toNat ≠ k.fieldWidth.bytes ∧ execDec len s = raise .lengthMismatch s) ∨
       (len.toNat = k.fieldWidth.bytes ∧
        ((∃ p, sentinelBits (fieldByte s.port.x0 0) = some p ∧ execDec len s = respondOk 8#8 p s) ∨
         (sentinelBits (fieldByte s.port.x0 0) = none ∧
          ((outsideRange k (decodedValue k s) = true ∧ execDec len s = raise .decodedOutOfRange s) ∨
           (outsideRange k (decodedValue k s) = false ∧
             execDec len s = respondReal (decodedValue k s) s))))))) := by
  unfold execDec fieldOperand
  cases hk : s.codec with
  | none => exact .inl ⟨rfl, rfl⟩
  | some k =>
    refine .inr ⟨k, rfl, ?_⟩
    by_cases hl : len.toNat = k.fieldWidth.bytes
    · refine .inr ⟨hl, ?_⟩
      cases hb : sentinelBits (fieldByte s.port.x0 0) with
      | some p => exact .inl ⟨p, rfl, by simp [hl]⟩
      | none =>
        refine .inr ⟨rfl, ?_⟩
        cases ho : outsideRange k (decodedValue k s) with
        | true => exact .inl ⟨rfl, by simp [hl, ho]⟩
        | false => exact .inr ⟨rfl, by simp [hl, ho]⟩
    · exact .inl ⟨hl, by simp [hl]⟩

/-- `RDCSR` ends in `IllegalCommand`, `NotConfigured` or the register's value (R101, R103). -/
theorem execRdcsr_cases (idx : BitVec 8) (s : State) :
    (csrOfIndex idx = none ∧ execRdcsr idx s = raise .illegalCommand s) ∨
    (∃ r, csrOfIndex idx = some r ∧
      ((readCsr s r = none ∧ execRdcsr idx s = raise .notConfigured s) ∨
       (∃ v, readCsr s r = some v ∧ execRdcsr idx s = respondOk 8#8 v s))) := by
  unfold execRdcsr
  cases hr : csrOfIndex idx with
  | none => exact .inl ⟨rfl, rfl⟩
  | some r =>
    refine .inr ⟨r, rfl, ?_⟩
    dsimp only
    cases hv : readCsr s r with
    | none => exact .inl ⟨rfl, rfl⟩
    | some v => exact .inr ⟨v, rfl, rfl⟩

/-- What a command ends in: a response delivered to the state it started from, to a state that only took one more
draw, or to the state with a new configuration of its operands committed. -/
inductive CommandEnd (i : Instr) (s : State) : State → Prop where
  | error (st : Status) (h : st ≠ .ok) : CommandEnd i s (deliver ⟨st, 0#8, 0#64⟩ s)
  | data (rlen : BitVec 8) (rdata : Word) (h : i ≠ .cfg ∧ i ≠ .cfgp) : CommandEnd i s (deliver ⟨.ok, rlen, rdata⟩ s)
  | real (rdata : Word) (h : i ≠ .cfg ∧ i ≠ .cfgp) :
      CommandEnd i s (deliver ⟨.ok, 8#8, rdata⟩ { s with draws := s.draws + 1 })
  | configured (w : Width) (h : i = .cfg ∨ i = .cfgp) :
      CommandEnd i s
        (deliver ⟨.ok, 0#8, 0#64⟩ (commit (rangeScale s.port.x0 s.port.x1 w s.draws) s))

/-- Every command ends in a next state of one of these forms (R104, R130). -/
theorem exec_end (i : Instr) (s : State) : ∃ t, exec i s = .next t ∧ CommandEnd i s t := by
  cases i with
  | cfg =>
    rcases execCfg_cases s with ⟨-, h⟩ | ⟨w, -, h⟩
    · exact ⟨_, h, .error _ (by decide)⟩
    · exact ⟨_, h, .configured w (.inl rfl)⟩
  | cfgp =>
    rcases execCfgp_cases s with ⟨st, hs, h⟩ | ⟨w, -, h⟩
    · refine ⟨_, h, .error st ?_⟩
      rcases selectWidth_error hs with rfl | rfl <;> decide
    · exact ⟨_, h, .configured w (.inr rfl)⟩
  | enc =>
    rcases execEnc_cases s with
      ⟨-, h⟩ | ⟨k, -, ⟨b, -, h⟩ | ⟨-, -, h⟩ | ⟨-, -, -, h⟩ | ⟨-, -, d, -, h⟩⟩
    · exact ⟨_, h, .error _ (by decide)⟩
    · exact ⟨_, h, .data _ _ (by decide)⟩
    · exact ⟨_, h, .error _ (by decide)⟩
    · exact ⟨_, h, .error _ (by decide)⟩
    · exact ⟨_, h, .data _ _ (by decide)⟩
  | dec len =>
    rcases execDec_cases len s with
      ⟨-, h⟩ | ⟨k, -, ⟨-, h⟩ | ⟨-, ⟨p, -, h⟩ | ⟨-, ⟨-, h⟩ | ⟨-, h⟩⟩⟩⟩
    · exact ⟨_, h, .error _ (by decide)⟩
    · exact ⟨_, h, .error _ (by decide)⟩
    · exact ⟨_, h, .data _ _ ⟨nofun, nofun⟩⟩
    · exact ⟨_, h, .error _ (by decide)⟩
    · exact ⟨_, h, .real _ ⟨nofun, nofun⟩⟩
  | rdcsr idx =>
    rcases execRdcsr_cases idx s with ⟨-, h⟩ | ⟨r, -, ⟨-, h⟩ | ⟨v, -, h⟩⟩
    · exact ⟨_, h, .error _ (by decide)⟩
    · exact ⟨_, h, .error _ (by decide)⟩
    · exact ⟨_, h, .data _ _ ⟨nofun, nofun⟩⟩

/-! ### What a step can do -/

/-- What a step does, once: reset (R121), the end of the presented command (R126), an illegal word (R55), or the host's
move. -/
theorem step_cases (s : State) :
    (s.resetLine = true ∧ step s = .next (applyReset s)) ∨
    (s.resetLine = false ∧ s.presented = true ∧
      ((∃ i, decode s.port.cmd = .ok i ∧ step s = exec i s) ∨
       (∃ e, decode s.port.cmd = .error e ∧ step s = raise .illegalCommand s))) ∨
    (s.resetLine = false ∧ s.presented = false ∧ step s = .next (hostMove s)) := by
  unfold step
  cases hr : s.resetLine with
  | true => exact .inl ⟨rfl, rfl⟩
  | false =>
    cases hp : s.presented with
    | false => exact .inr (.inr ⟨rfl, rfl, rfl⟩)
    | true =>
      refine .inr (.inl ⟨rfl, rfl, ?_⟩)
      cases hd : decode s.port.cmd with
      | ok i => exact .inl ⟨i, rfl, by simp⟩
      | error e => exact .inr ⟨e, rfl, by simp⟩

end Sys2Proof.Machine
end

