-- ==== Sys2Proof/Laws/PerInstr.lean ====
section
/-! SUPPORT. A statement about every instruction as syntax, proved constructor by constructor: its word has the
operation of R52 in `OP` and zero in both reserved fields (R51). -/

namespace Sys2Proof.Laws

/-- The packed word as a number: `IMM8` above bit 8, `OP` below bit 4, zeros between and above. -/
theorem packCommand_toNat (op : BitVec 4) (imm : BitVec 8) :
    (packCommand op imm).toNat = imm.toNat * 256 + op.toNat := by
  have h : packCommand op imm = ((0#16 ++ imm : BitVec 24) ++ 0#4 : BitVec 28) ++ op := rfl
  rw [h, BitVec.toNat_append, BitVec.toNat_append, BitVec.toNat_append,
    ← Nat.shiftLeft_add_eq_or_of_lt op.isLt, ← Nat.shiftLeft_add_eq_or_of_lt (BitVec.isLt 0#4),
    ← Nat.shiftLeft_add_eq_or_of_lt imm.isLt]
  simp only [Nat.shiftLeft_eq, BitVec.toNat_ofNat]
  omega

theorem opField_packCommand (op : BitVec 4) (imm : BitVec 8) : opField (packCommand op imm) = op := by
  apply BitVec.eq_of_toNat_eq
  have h := packCommand_toNat op imm
  simp only [opField, BitVec.extractLsb'_toNat, Nat.shiftRight_eq_div_pow, h]
  omega

theorem rsv0Field_packCommand (op : BitVec 4) (imm : BitVec 8) : rsv0Field (packCommand op imm) = 0#4 := by
  apply BitVec.eq_of_toNat_eq
  have h := packCommand_toNat op imm
  simp only [rsv0Field, BitVec.extractLsb'_toNat, Nat.shiftRight_eq_div_pow, h, BitVec.toNat_ofNat]
  omega

theorem immField_packCommand (op : BitVec 4) (imm : BitVec 8) : immField (packCommand op imm) = imm := by
  apply BitVec.eq_of_toNat_eq
  have h := packCommand_toNat op imm
  simp only [immField, BitVec.extractLsb'_toNat, Nat.shiftRight_eq_div_pow, h]
  omega

theorem rsv1Field_packCommand (op : BitVec 4) (imm : BitVec 8) : rsv1Field (packCommand op imm) = 0#16 := by
  apply BitVec.eq_of_toNat_eq
  have h := packCommand_toNat op imm
  simp only [rsv1Field, BitVec.extractLsb'_toNat, Nat.shiftRight_eq_div_pow, h, BitVec.toNat_ofNat]
  omega

namespace EncodingFields

/-- The word of an instruction has zero reserved fields and an operation of R52. -/
def Statement (i : Instr) : Prop :=
  rsv0Field (encode i) = 0#4 ∧ rsv1Field (encode i) = 0#16 ∧
    1 ≤ (opField (encode i)).toNat ∧ (opField (encode i)).toNat ≤ 5

theorem of_pack {i : Instr} {op : BitVec 4} {imm : BitVec 8} (h : encode i = packCommand op imm)
    (h1 : 1 ≤ op.toNat) (h5 : op.toNat ≤ 5) : Statement i := by
  refine ⟨?_, ?_, ?_, ?_⟩ <;>
    simp only [h, rsv0Field_packCommand, rsv1Field_packCommand, opField_packCommand, h1, h5]

theorem cfg : Statement .cfg := of_pack rfl (by decide) (by decide)

theorem cfgp : Statement .cfgp := of_pack rfl (by decide) (by decide)

theorem enc : Statement .enc := of_pack rfl (by decide) (by decide)

theorem dec (len : BitVec 8) : Statement (.dec len) := of_pack rfl (by decide) (by decide)

theorem rdcsr (idx : BitVec 8) : Statement (.rdcsr idx) := of_pack rfl (by decide) (by decide)

end EncodingFields

end Sys2Proof.Laws
end

