-- ==== Sys2Proof/Laws/Rounding.lean ====
section
/-! SUPPORT. What rounding does, once (R11): the quotient, the remainder and the unit in the last place that decide it,
the significands that binary64 holds, and the exact case. -/

namespace Sys2Proof

/-- A significand of at most 2^53 times a power of two has at most 53 significant bits. -/
theorem significand_fits {q : Nat} (hq : q ≤ 2 ^ 53) (k : Nat) :
    (q * 2 ^ k) % 2 ^ ((q * 2 ^ k).log2 - 52) = 0 := by
  rcases Nat.eq_zero_or_pos q with rfl | hpos
  · simp
  rcases Nat.lt_or_eq_of_le hq with hlt | rfl
  · have hlog : (q * 2 ^ k).log2 < 53 + k := by
      rw [Nat.log2_lt (Nat.ne_of_gt (Nat.mul_pos hpos (Nat.two_pow_pos k))), Nat.pow_add]
      exact Nat.mul_lt_mul_of_pos_right hlt (Nat.two_pow_pos k)
    exact Nat.mod_eq_zero_of_dvd (Dvd.dvd.mul_left (Nat.pow_dvd_pow 2 (by omega)) q)
  · rw [← Nat.pow_add, Nat.log2_two_pow]
    exact Nat.mod_eq_zero_of_dvd (Nat.pow_dvd_pow 2 (by omega))

/-- The rounded magnitude of `num / den`, by the whole number `q` of units `2^k` in the quotient and the remainder `r`
that decides between `q` and `q + 1` (R11). -/
theorem roundMag_eq (num : Nat) {den : Nat} (hden : 0 < den) :
    ∃ q r k, k = (num / den).log2 - 52 ∧ num = den * 2 ^ k * q + r ∧ r < den * 2 ^ k ∧ q < 2 ^ 53 ∧
      (k = 0 ∨ 2 ^ 52 ≤ q) ∧
      roundMag num den =
        if den * 2 ^ k < 2 * r ∨ (2 * r = den * 2 ^ k ∧ q % 2 = 1) then (q + 1) * 2 ^ k else q * 2 ^ k := by
  have hu : 0 < den * 2 ^ ((num / den).log2 - 52) := Nat.mul_pos hden (Nat.two_pow_pos _)
  refine ⟨num / (den * 2 ^ ((num / den).log2 - 52)), num % (den * 2 ^ ((num / den).log2 - 52)), _, rfl,
    (Nat.div_add_mod _ _).symm, Nat.mod_lt _ hu, ?_, ?_, rfl⟩
  · rw [← Nat.div_div_eq_div_mul, Nat.div_lt_iff_lt_mul (Nat.two_pow_pos _), ← Nat.pow_add]
    exact Nat.lt_of_lt_of_le Nat.lt_log2_self (Nat.pow_le_pow_right (by decide) (by omega))
  · rcases Nat.eq_zero_or_pos ((num / den).log2 - 52) with h | h
    · exact .inl h
    · right
      have hn : num / den ≠ 0 := by
        intro h0; rw [h0] at h; exact absurd h (by decide)
      rw [← Nat.div_div_eq_div_mul, Nat.le_div_iff_mul_le (Nat.two_pow_pos _), ← Nat.pow_add]
      exact Nat.le_trans (Nat.pow_le_pow_right (by decide) (by omega)) (Nat.log2_self_le hn)

/-- A rounded magnitude has at most 53 significant bits (R11). -/
theorem roundMag_fits (num : Nat) {den : Nat} (hden : 0 < den) :
    roundMag num den % 2 ^ ((roundMag num den).log2 - 52) = 0 := by
  obtain ⟨q, r, k, -, -, -, hq, -, h⟩ := roundMag_eq num hden
  rw [h]
  split
  · exact significand_fits hq k
  · exact significand_fits (Nat.le_of_lt hq) k

/-- A magnitude binary64 holds rounds to itself (R11). -/
theorem roundMag_exact {m : Nat} (h : m % 2 ^ (m.log2 - 52) = 0) : roundMag m 1 = m := by
  obtain ⟨q, r, k, hk, hm, hr, -, -, he⟩ := roundMag_eq m Nat.one_pos
  rw [Nat.div_one] at hk
  rw [Nat.one_mul] at hm hr he
  have hr0 : r = 0 := by
    rw [← hk, hm, Nat.mul_add_mod, Nat.mod_eq_of_lt hr] at h
    exact h
  subst hr0
  rw [he, if_neg, hm, Nat.add_zero, Nat.mul_comm]
  rintro (h1 | ⟨h1, -⟩)
  · exact Nat.not_lt_zero _ h1
  · exact Nat.ne_of_gt (Nat.two_pow_pos k) (by omega)

end Sys2Proof
end

