-- ==== Sys2Proof/Tests/Slice0.lean ====
section
/-! SUPPORT. Tests from the spec's encodings and vectors (spec/30_encoding.md R65, spec/95_test_vectors.md), and for each
statement with hypotheses a state and operands that meet them. -/

namespace Sys2Proof.Tests

open Sys2Proof Sys2Proof.Machine

/-- The reset state with a configuration and a presented command. -/
def onPort (k : Option Codec) (cmd : CmdWord) (x0 x1 x2 : Word) : State :=
  { State.reset with codec := k, port := ⟨cmd, x0, x1, x2⟩, presented := true }

/-- The response a command ends with. -/
def reply : Outcome → Option Response
  | .next t => t.responses.getLast?
  | .fault _ => none
  | .refused _ => none

/-- K1 of spec/95_test_vectors.md: `CFGP 0, 1e5, 1e-4`. -/
def k1 : Codec := ⟨0x0#64, 0x40F86A0000000000#64, .w4, 0x4031000000000000#64, 31, 0x40D0000000000000#64,
  0x3F10000000000000#64, 0x0#64⟩

/-- K2: `CFG -100, 100, 2`. -/
def k2 : Codec := ⟨0xC059000000000000#64, 0x4059000000000000#64, .w2, 0x4020000000000000#64, 15,
  0x4060000000000000#64, 0x3F80000000000000#64, 0x0#64⟩

/-- K3: `CFG -1.1, 2, 1`. -/
def k3 : Codec := ⟨0xBFF199999999999A#64, 0x4000000000000000#64, .w1, 0x4000000000000000#64, 7,
  0x4040000000000000#64, 0x3FA0000000000000#64, 0x3FE9999999999980#64⟩

/-- K4: `CFG 0, 1, 1`. -/
def k4 : Codec := ⟨0x0#64, 0x3FF0000000000000#64, .w1, 0x0#64, 7, 0x4060000000000000#64, 0x3F80000000000000#64, 0x0#64⟩

/-- K5: `CFG 0, 1, 8`. -/
def k5 : Codec := ⟨0x0#64, 0x3FF0000000000000#64, .w8, 0x0#64, 63, 0x43E0000000000000#64, 0x3C00000000000000#64, 0x0#64⟩

/-- K7: `CFG 0, 256.00000000000006, 8`. -/
def k7 : Codec := ⟨0x0#64, 0x4070000000000001#64, .w8, 0x4020000000000000#64, 63, 0x4360000000000000#64,
  0x3C80000000000000#64, 0x0#64⟩

/-! ### Well-formedness and decoding: words written out from the patterns of spec/opcode_table.json -/

theorem test_rdcsr_index_9_is_ill_formed : (Instr.rdcsr 9#8).wellFormed = false := by decide

theorem test_rdcsr_index_8_is_well_formed : (Instr.rdcsr 8#8).wellFormed = true := by decide

theorem test_decode_cfg : decode 0b00000000000000000000000000000001#32 = .ok .cfg := by decide

theorem test_decode_cfgp : decode 0b00000000000000000000000000000010#32 = .ok .cfgp := by decide

theorem test_decode_enc : decode 0b00000000000000000000000000000011#32 = .ok .enc := by decide

theorem test_decode_dec_4 : decode 0b00000000000000000000010000000100#32 = .ok (.dec 4#8) := by decide

theorem test_decode_rdcsr_6 : decode 0b00000000000000000000011000000101#32 = .ok (.rdcsr 6#8) := by decide

theorem test_decode_zero_word : decode 0x00000000#32 = .error .reservedOp := by decide

theorem test_decode_enc_with_immediate : decode 0x00000103#32 = .error .immNotZero := by decide

theorem test_table_word_runs_after_reset :
    reply (step (State.reset.withFetchWord 32 0x00000405)) = some ⟨.notConfigured, 0#8, 0#64⟩ := by decide +kernel

/-! ### One or two vectors per command -/

/-- V-CFG-3, from `DOMAIN_BITS = 2.0` on. -/
theorem test_cfg_constants_of_k3 :
    codecOf 0xBFF199999999999A#64 0x4000000000000000#64 .w1 (asF64 0x4000000000000000#64) 0 = k3 := by
  decide +kernel

/-- V-CFG-2: `DOMAIN_BITS` of the span 200 under the correctly rounded logarithms of 200 and 2. -/
theorem test_domain_bits_of_200 :
    ceil64 (fdiv (asF64 0x4015317A1B949C53#64) (asF64 0x3FE62E42FEFA39EF#64)) = asF64 0x4020000000000000#64 := by
  decide +kernel

/-- V-CFGP-1: from `lg = 29.897352853986263` to the width 4. -/
theorem test_cfgp_selects_4 :
    selectWidth (ceil64 (fdiv (ceil64 (fadd (asF64 0x403DE5B8EAA8D7E0#64) (F64.ofNat 1))) (F64.ofNat 8))) = .ok .w4 := by
  decide +kernel

/-- V-CFGP-18: `0 / 0` is a NaN. -/
theorem test_cfgp_of_zeros : reply (exec .cfgp (onPort none 2#32 0#64 0#64 0#64)) =
    some ⟨.precisionUnrepresentable, 0#8, 0#64⟩ := by decide +kernel

/-- V-ENC-1: the source's vector. -/
theorem test_enc_pi : reply (exec .enc (onPort (some k1) 3#32 0x400921FB54442D18#64 0#64 0#64)) =
    some ⟨.ok, 4#8, 0x0000C90F00000000#64⟩ := by decide +kernel

/-- V-ENC-35: a code above `2^CODE_BITS`, not clamped. -/
theorem test_enc_boundary_code : reply (exec .enc (onPort (some k7) 3#32 0x4070000000000001#64 0#64 0#64)) =
    some ⟨.ok, 8#8, 0x8000000000000800#64⟩ := by decide +kernel

/-- V-DEC-1. -/
theorem test_dec_pi : reply (exec (.dec 4#8) (onPort (some k1) 0x404#32 0x0000C90F00000000#64 0#64 0#64)) =
    some ⟨.ok, 8#8, 0x400921E000000000#64⟩ := by decide +kernel

/-- V-DEC-26: the code rounds up past the bound. -/
theorem test_dec_rounds_out_of_range :
    reply (exec (.dec 8#8) (onPort (some k5) 0x804#32 0x8000000000000401#64 0#64 0#64)) =
      some ⟨.decodedOutOfRange, 0#8, 0#64⟩ := by decide +kernel

/-- V-RDCSR-3. -/
theorem test_rdcsr_scale : reply (exec (.rdcsr 6#8) (onPort (some k1) 0x605#32 0#64 0#64 0#64)) =
    some ⟨.ok, 8#8, 0x40D0000000000000#64⟩ := by decide +kernel

/-- V-RDCSR-13. -/
theorem test_rdcsr_9_is_illegal : reply (step (onPort none 0x905#32 0#64 0#64 0#64)) =
    some ⟨.illegalCommand, 0#8, 0#64⟩ := by decide +kernel

/-! ### States and operands that meet the hypotheses of the statements -/

theorem witness_illegal_words_illegal :
    (onPort none 0x905#32 0#64 0#64 0#64).ready ∧ (0x905 % 16 = 5 ∧ 8 < 0x905 / 256 % 256) := ⟨⟨rfl, rfl⟩, by decide⟩

theorem witness_illegal_words_legal :
    (onPort none 0x805#32 0#64 0#64 0#64).ready ∧
      ¬ (0x805 % 16 = 0 ∨ 6 ≤ 0x805 % 16 ∨ 0x805 / 16 % 16 ≠ 0 ∨ 0x805 / 65536 ≠ 0 ∨
        (1 ≤ 0x805 % 16 ∧ 0x805 % 16 ≤ 3 ∧ 0x805 / 256 % 256 ≠ 0) ∨ (0x805 % 16 = 5 ∧ 8 < 0x805 / 256 % 256)) :=
  ⟨⟨rfl, rfl⟩, by decide⟩

theorem witness_step_runs :
    (onPort none 0x805#32 0#64 0#64 0#64).ready ∧ (Instr.rdcsr 8#8).wellFormed = true ∧
      decode (onPort none 0x805#32 0#64 0#64 0#64).port.cmd = .ok (.rdcsr 8#8) := ⟨⟨rfl, rfl⟩, rfl, rfl⟩

theorem witness_every_command_ends : (onPort none 0#32 0#64 0#64 0#64).ready := ⟨rfl, rfl⟩

/-- A configured block with a command presented and reset asserted. -/
def resetDuring : State := { onPort (some k2) 3#32 0#64 0#64 0#64 with resetLine := true }

theorem witness_reset : resetDuring.resetLine = true := rfl

/-- An idle configured block whose host has one move left. -/
def withMove (m : HostMove) : State := { State.reset with codec := some k2, host := [m] }

theorem witness_reset_cuts :
    (withMove (.commandCut ⟨1#32, 0#64, 0#64, 1#64⟩)).presented = false ∧
      (withMove (.commandCut ⟨1#32, 0#64, 0#64, 1#64⟩)).resetLine = false ∧
      (withMove (.commandCut ⟨1#32, 0#64, 0#64, 1#64⟩)).host = .commandCut ⟨1#32, 0#64, 0#64, 1#64⟩ :: [] :=
  ⟨rfl, rfl, rfl⟩

theorem witness_host_command :
    (withMove (.command ⟨3#32, 0#64, 0#64, 0#64⟩)).presented = false ∧
      (withMove (.command ⟨3#32, 0#64, 0#64, 0#64⟩)).resetLine = false ∧
      (withMove (.command ⟨3#32, 0#64, 0#64, 0#64⟩)).host = .command ⟨3#32, 0#64, 0#64, 0#64⟩ :: [] :=
  ⟨rfl, rfl, rfl⟩

theorem witness_idle :
    State.reset.presented = false ∧ State.reset.resetLine = false ∧ State.reset.host = [] := ⟨rfl, rfl, rfl⟩

/-- `CFG 0, 1, 1` presented after reset. -/
def cfgUnit : State := onPort none 1#32 0#64 0x3FF0000000000000#64 1#64

theorem witness_step_keeps_invariant :
    cfgUnit.Inv ∧ step cfgUnit =
      .next (deliver ⟨.ok, 0#8, 0#64⟩ (commit (rangeScale 0#64 0x3FF0000000000000#64 .w1 0) cfgUnit)) :=
  ⟨⟨nofun, nofun, nofun⟩, rfl⟩

/-- `ENC` presented to a block that is not configured. -/
def encUnconfigured : State := onPort none 3#32 0#64 0#64 0#64

theorem witness_only_three_fault :
    encUnconfigured.runFaulted = false ∧
      step encUnconfigured = .next (deliver ⟨.notConfigured, 0#8, 0#64⟩ encUnconfigured) ∧
      (deliver ⟨.notConfigured, 0#8, 0#64⟩ encUnconfigured).runFaulted = true := ⟨rfl, rfl, rfl⟩

theorem witness_added_status_faults :
    encUnconfigured.ready ∧ step encUnconfigured = .next (deliver ⟨.notConfigured, 0#8, 0#64⟩ encUnconfigured) ∧
      (deliver ⟨.notConfigured, 0#8, 0#64⟩ encUnconfigured).responses =
        encUnconfigured.responses ++ [⟨.notConfigured, 0#8, 0#64⟩] := ⟨⟨rfl, rfl⟩, rfl, rfl⟩

/-- A run that has recorded a fault, and then `RDCSR 0`. -/
def faultedThenRead : State :=
  { onPort none 5#32 0#64 0#64 0#64 with responses := [⟨.illegalCommand, 0#8, 0#64⟩] }

theorem witness_run_faults_stay :
    faultedThenRead.runFaulted = true ∧
      Sys2Proof.core.run 1 faultedThenRead = .next (deliver ⟨.ok, 8#8, 0#64⟩ faultedThenRead) := ⟨rfl, rfl⟩

theorem witness_delivered_stay :
    Sys2Proof.core.run 1 faultedThenRead = .next (deliver ⟨.ok, 8#8, 0#64⟩ faultedThenRead) := rfl

theorem witness_failed_changes_nothing :
    encUnconfigured.ready ∧ step encUnconfigured = .next (deliver ⟨.notConfigured, 0#8, 0#64⟩ encUnconfigured) ∧
      (deliver ⟨.notConfigured, 0#8, 0#64⟩ encUnconfigured).responses =
        encUnconfigured.responses ++ [⟨.notConfigured, 0#8, 0#64⟩] ∧ Status.notConfigured ≠ .ok :=
  ⟨⟨rfl, rfl⟩, rfl, rfl, by decide⟩

theorem witness_only_configurations_write :
    exec .cfg cfgUnit =
        .next (deliver ⟨.ok, 0#8, 0#64⟩ (commit (rangeScale 0#64 0x3FF0000000000000#64 .w1 0) cfgUnit)) ∧
      (deliver ⟨.ok, 0#8, 0#64⟩ (commit (rangeScale 0#64 0x3FF0000000000000#64 .w1 0) cfgUnit)).codec ≠
        cfgUnit.codec := ⟨rfl, nofun⟩

/-- `RDCSR 3` presented to K2. -/
def readWidth : State := onPort (some k2) 0x305#32 0#64 0#64 0#64

theorem witness_reading_frame :
    Instr.rdcsr 3#8 ≠ .cfg ∧ Instr.rdcsr 3#8 ≠ .cfgp ∧
      exec (.rdcsr 3#8) readWidth = .next (deliver ⟨.ok, 8#8, 2#64⟩ readWidth) := ⟨nofun, nofun, rfl⟩

theorem witness_valid_follows :
    exec (.rdcsr 3#8) readWidth = .next (deliver ⟨.ok, 8#8, 2#64⟩ readWidth) := rfl

theorem witness_unused_operands :
    Instr.enc ≠ .cfg ∧ Instr.enc ≠ .cfgp ∧
      exec .enc encUnconfigured = .next (deliver ⟨.notConfigured, 0#8, 0#64⟩ encUnconfigured) ∧
      ((∀ idx, Instr.enc ≠ .rdcsr idx) → (0#64 : Word) = encUnconfigured.port.x0) := ⟨nofun, nofun, rfl, fun _ => rfl⟩

theorem witness_cfg_commits : cfgUnit.port.x2 = BitVec.ofNat 64 Width.w1.bytes := rfl

theorem witness_cfg_rejects :
    let s := onPort none 1#32 0#64 0#64 0x100000001#64
    s.port.x2.toNat ≠ 1 ∧ s.port.x2.toNat ≠ 2 ∧ s.port.x2.toNat ≠ 4 ∧ s.port.x2.toNat ≠ 8 := by decide

theorem witness_byte_length_one_two :
    feq (F64.ofNat 1) (F64.ofNat 1) = true ∧ feq (F64.ofNat 2) (F64.ofNat 2) = true := by decide +kernel

theorem witness_byte_length_not_positive :
    (fle (.fin true 0) (F64.ofNat 2) = true ∧ feq (.fin true 0) (F64.ofNat 1) = false ∧
      feq (.fin true 0) (F64.ofNat 2) = false) ∧
    (fle (.inf true) (F64.ofNat 2) = true ∧ feq (.inf true) (F64.ofNat 1) = false ∧
      feq (.inf true) (F64.ofNat 2) = false) := by decide +kernel

theorem witness_byte_length_rounds_up :
    (fgt (F64.ofNat 3) (F64.ofNat 2) = true ∧ fle (F64.ofNat 3) (F64.ofNat 4) = true) ∧
    (fgt (F64.ofNat 4) (F64.ofNat 2) = true ∧ fle (F64.ofNat 4) (F64.ofNat 4) = true) ∧
    (fgt (F64.ofNat 5) (F64.ofNat 4) = true ∧ fle (F64.ofNat 5) (F64.ofNat 8) = true) ∧
    (fgt (F64.ofNat 8) (F64.ofNat 4) = true ∧ fle (F64.ofNat 8) (F64.ofNat 8) = true) := by decide +kernel

theorem witness_byte_length_too_long :
    fle (F64.ofNat 9) (F64.ofNat 8) = false ∧ fle .nan (F64.ofNat 8) = false := by decide +kernel

/-- `CFGP 0, 1, p` presented after reset. -/
def cfgpUnit (p : Word) : State := onPort none 2#32 0#64 0x3FF0000000000000#64 p

/-- V-CFGP-3: `r = 1`. -/
theorem witness_cfgp_unit_ratio :
    fdiv (fsub (asF64 (cfgpUnit 0x3FF0000000000000#64).port.x1) (asF64 (cfgpUnit 0x3FF0000000000000#64).port.x0))
      (asF64 (cfgpUnit 0x3FF0000000000000#64).port.x2) = F64.ofNat 1 := by decide +kernel

theorem witness_cfgp_configures :
    let s := cfgpUnit 0x3FF0000000000000#64
    selectWidth (ceil64 (fdiv (ceil64 (fadd
      (LOG2 (fdiv (fsub (asF64 s.port.x1) (asF64 s.port.x0)) (asF64 s.port.x2))) (F64.ofNat 1))) (F64.ofNat 8))) =
        .ok .w1 := by
  have h : F64.ofNat 1 = .fin false F64.unit := by rw [F64.ofNat, Nat.one_mul]
  intro s
  rw [show fdiv (fsub (asF64 s.port.x1) (asF64 s.port.x0)) (asF64 s.port.x2) = F64.ofNat 1 from
    witness_cfgp_unit_ratio]
  rw [h, LOG2_one]
  decide +kernel

/-- V-CFGP-11: a NaN precision. -/
theorem witness_cfgp_fails :
    let s := cfgpUnit 0x7FF8000000000000#64
    selectWidth (ceil64 (fdiv (ceil64 (fadd
      (LOG2 (fdiv (fsub (asF64 s.port.x1) (asF64 s.port.x0)) (asF64 s.port.x2))) (F64.ofNat 1))) (F64.ofNat 8))) =
        .error .precisionUnrepresentable := by decide +kernel

/-- `r` of the operands presented. -/
def ratio (s : State) : F64 := fdiv (fsub (asF64 s.port.x1) (asF64 s.port.x0)) (asF64 s.port.x2)

/-- V-CFGP-9, V-CFGP-17, V-CFGP-10, V-CFGP-11: `r` is infinite, negative, a NaN. -/
theorem witness_cfgp_without_logarithm :
    ratio (cfgpUnit 0#64) = .inf false ∧ ratio (cfgpUnit 0x8000000000000000#64) = .inf true ∧
    (F64.unit ≠ 0 ∧ ratio (cfgpUnit 0xBFF0000000000000#64) = .fin true F64.unit) ∧
    ratio (cfgpUnit 0x7FF8000000000000#64) = .nan := by decide +kernel

/-- V-CFGP-12: `min = max`. -/
theorem witness_cfgp_zero_ratio :
    ratio (onPort none 2#32 0#64 0#64 0x3FF0000000000000#64) = .fin false 0 := by decide +kernel

/-- V-DEG-1's bounds, and the two zeros. -/
theorem witness_equal_bounds :
    (asF64 0x4014000000000000#64 = .fin false (5 * F64.unit) ∧
      feq (asF64 0x4014000000000000#64) (asF64 0x4014000000000000#64) = true) ∧
    (asF64 0#64 = .fin false 0 ∧ asF64 0x8000000000000000#64 = .fin true 0 ∧
      feq (asF64 0#64) (asF64 0x8000000000000000#64) = true) := by decide +kernel

/-- V-DEG-2, V-DEG-4, V-DEG-5. -/
theorem witness_reversed_or_nan :
    fgt (asF64 0x3FF0000000000000#64) (asF64 0#64) = true ∧ isNaN (asF64 0x7FF8000000000000#64) = true := by
  decide +kernel

/-- V-DEG-3, V-DEG-6, V-DEG-7. -/
theorem witness_infinite_span :
    fsub (asF64 0x7FE1CCF385EBC8A0#64) (asF64 0xFFE1CCF385EBC8A0#64) = .inf false ∧
    (fsub (asF64 0x3FF0000000000000#64) (asF64 0xFFF0000000000000#64) = .inf false ∧
      asF64 0xFFF0000000000000#64 = .inf true ∧ fgt (asF64 0x3FF0000000000000#64) (F64.ofNat 0) = true) ∧
    (fsub (asF64 0xBFF0000000000000#64) (asF64 0xFFF0000000000000#64) = .inf false ∧
      fgt (asF64 0xBFF0000000000000#64) (F64.ofNat 0) = false) ∧
    (∃ m, asF64 0xFFE1CCF385EBC8A0#64 = .fin true m) := by
  refine ⟨by decide +kernel, by decide +kernel, by decide +kernel, ?_⟩
  exact ⟨_, by rw [asF64, if_neg (by decide), F64.ofFields, if_neg (by decide)]; rfl⟩

theorem domain_bits_of_unit_range : domainBitsOf (asF64 0#64) (asF64 0x3FF0000000000000#64) = .fin false 0 := by
  have h : fsub (asF64 0x3FF0000000000000#64) (asF64 0#64) = .fin false F64.unit := by decide +kernel
  rw [domainBitsOf, h, LOG2_one]
  decide +kernel

/-- `[0, 1]` with one byte: scales 128 and 1/128, for every `LN`. -/
theorem witness_reciprocal_scales :
    asF64 (rangeScale 0#64 0x3FF0000000000000#64 .w1 0).scaleFwd = .fin false (128 * F64.unit) ∧
      asF64 (rangeScale 0#64 0x3FF0000000000000#64 .w1 0).scaleRev = .fin false (F64.unit / 128) ∧
      128 * F64.unit ≠ 0 ∧ F64.unit / 128 ≠ 0 := by
  rw [rangeScale, domain_bits_of_unit_range]
  decide +kernel

theorem witness_unconfigured :
    encUnconfigured.codec = none ∧ (8#8).toNat ≤ 8 ∧ 1 ≤ (1#8).toNat := ⟨rfl, by decide, by decide⟩

theorem witness_enc_special :
    (onPort (some k2) 3#32 0xFFF8000000000001#64 0#64 0#64).codec = some k2 ∧
      isNaN (asF64 (onPort (some k2) 3#32 0xFFF8000000000001#64 0#64 0#64).port.x0) = true := by decide +kernel

set_option exponentiation.threshold 4096 in
/-- V-ENC-7 and V-ENC-6: the data next to the bounds. -/
theorem witness_enc_outside :
    let below := onPort (some k1) 3#32 0x8000000000000001#64 0#64 0#64
    let above := onPort (some k1) 3#32 0x40F86A0000000001#64 0#64 0#64
    (below.codec = some k1 ∧ asF64 below.port.x0 = .fin true 1 ∧ flt (asF64 below.port.x0) (asF64 k1.a) = true) ∧
    (above.codec = some k1 ∧ asF64 above.port.x0 = .fin false ((2 ^ 52 + 0x86A0000000001) * 2 ^ 1038) ∧
      fgt (asF64 above.port.x0) (asF64 k1.b) = true) := by decide +kernel

/-- V-ENC-25: `v = B`, the boundary code. -/
theorem witness_enc_regular :
    let s := onPort (some k4) 3#32 0x3FF0000000000000#64 0#64 0#64
    s.codec = some k4 ∧ asF64 s.port.x0 = .fin false F64.unit ∧ flt (asF64 s.port.x0) (asF64 k4.a) = false ∧
      fgt (asF64 s.port.x0) (asF64 k4.b) = false ∧
      toU64 (floor64 (fadd (fmul (asF64 k4.scaleFwd) (fsub (asF64 s.port.x0) (asF64 k4.a))) (asF64 k4.zeroOffset))) =
        some 128 := by decide +kernel

/-- A configuration with the bounds of K4 and the given scale and offset. -/
def scaled (scale offset : Word) : Codec := { k4 with scaleFwd := scale, zeroOffset := offset }

/-- `ENC v` presented to `scaled scale offset`. -/
def encScaled (v scale offset : Word) : State := onPort (some (scaled scale offset)) 3#32 v 0#64 0#64

/-- `rf` of `ENC v` under `scaled scale offset`. -/
def rfScaled (v scale offset : Word) : F64 :=
  floor64 (fadd (fmul (asF64 (scaled scale offset).scaleFwd)
    (fsub (asF64 (encScaled v scale offset).port.x0) (asF64 (scaled scale offset).a)))
    (asF64 (scaled scale offset).zeroOffset))

/-- `rf` a NaN, an infinity, -1 and 2^64 for the values 0 and 1, which are within `[0, 1]`. -/
theorem witness_enc_unrepresentable :
    isNaN (rfScaled 0#64 0x7FF0000000000000#64 0#64) = true ∧
      isInf (rfScaled 0x3FF0000000000000#64 0x7FF0000000000000#64 0#64) = true ∧
      flt (rfScaled 0#64 0x3FF0000000000000#64 0xBFF0000000000000#64) (F64.ofNat 0) = true ∧
      rfScaled 0x3FF0000000000000#64 0x43F0000000000000#64 0#64 = F64.ofNat (2 ^ 64) ∧
      fge (rfScaled 0x3FF0000000000000#64 0x43F0000000000000#64 0#64) (F64.ofNat (2 ^ 64)) = true ∧
      asF64 0#64 = .fin false 0 ∧ asF64 0x3FF0000000000000#64 = .fin false F64.unit ∧
      flt (asF64 0#64) (asF64 k4.a) = false ∧ fgt (asF64 0x3FF0000000000000#64) (asF64 k4.b) = false ∧
      fgt (asF64 0#64) (asF64 k4.b) = false ∧ flt (asF64 0x3FF0000000000000#64) (asF64 k4.a) = false := by
  decide +kernel

theorem witness_dec_other_length :
    (onPort (some k4) 4#32 0xC800000000000000#64 0#64 0#64).codec = some k4 ∧
      (0#8).toNat ≠ k4.fieldWidth.bytes ∧ (2#8).toNat ≠ k4.fieldWidth.bytes := ⟨rfl, by decide, by decide⟩

/-- V-DEC-5, V-DEC-3, V-DEC-4. -/
theorem witness_dec_sentinel :
    let s (x : Word) := onPort (some k1) 0x404#32 x 0#64 0#64
    (s 0xC812345600000000#64).codec = some k1 ∧ (4#8).toNat = k1.fieldWidth.bytes ∧
      (s 0xC812345600000000#64).port.x0.toNat / 2 ^ 56 = 0xC8 ∧
      (s 0xE800000000000000#64).port.x0.toNat / 2 ^ 56 = 0xE8 ∧
      (s 0xD000000000000000#64).port.x0.toNat / 2 ^ 56 = 0xD0 := by decide +kernel

/-- V-DEC-19: the boundary code of K4 decodes to `B`. -/
theorem witness_dec_regular :
    let s := onPort (some k4) 0x104#32 0x8000000000000000#64 0#64 0#64
    let l := s.port.x0.toNat / 2 ^ (64 - 8 * k4.fieldWidth.bytes)
    let v := fadd (fmul (asF64 k4.scaleRev) (fsub (u64ToF64 l) (asF64 k4.zeroOffset))) (asF64 k4.a)
    s.codec = some k4 ∧ (1#8).toNat = k4.fieldWidth.bytes ∧ s.port.x0.toNat / 2 ^ 56 ≠ 0xC8 ∧
      s.port.x0.toNat / 2 ^ 56 ≠ 0xE8 ∧ s.port.x0.toNat / 2 ^ 56 ≠ 0xD0 ∧
      flt v (asF64 k4.a) = false ∧ fgt v (asF64 k4.b) = false := by decide +kernel

/-- V-DEC-20: above `B`. -/
theorem witness_dec_above :
    let s := onPort (some k4) 0x104#32 0x8100000000000000#64 0#64 0#64
    let l := s.port.x0.toNat / 2 ^ (64 - 8 * k4.fieldWidth.bytes)
    s.codec = some k4 ∧ (1#8).toNat = k4.fieldWidth.bytes ∧ s.port.x0.toNat / 2 ^ 56 = 0x81 ∧
      fgt (fadd (fmul (asF64 k4.scaleRev) (fsub (u64ToF64 l) (asF64 k4.zeroOffset))) (asF64 k4.a)) (asF64 k4.b) = true := by
  decide +kernel

/-- V-DEC-12: below `A`. -/
theorem witness_dec_below :
    let s := onPort (some k3) 0x104#32 0#64 0#64 0#64
    let l := s.port.x0.toNat / 2 ^ (64 - 8 * k3.fieldWidth.bytes)
    s.codec = some k3 ∧ (1#8).toNat = k3.fieldWidth.bytes ∧ s.port.x0.toNat / 2 ^ 56 = 0 ∧
      flt (fadd (fmul (asF64 k3.scaleRev) (fsub (u64ToF64 l) (asF64 k3.zeroOffset))) (asF64 k3.a)) (asF64 k3.a) = true := by
  decide +kernel

theorem witness_dec_ignores :
    (0x12FF#64 : Word).toNat / 2 ^ (64 - 8 * k4.fieldWidth.bytes) =
      (0x3400#64 : Word).toNat / 2 ^ (64 - 8 * k4.fieldWidth.bytes) ∧
    exec (.dec 3#8) (onPort (some k4) 0x304#32 0x3400#64 0#64 0#64) =
      .next (deliver ⟨.lengthMismatch, 0#8, 0#64⟩ (onPort (some k4) 0x304#32 0x3400#64 0#64 0#64)) := ⟨by decide, rfl⟩

/-- `ENC +inf` presented to K2. -/
def encInf : State := onPort (some k2) 3#32 0x7FF0000000000000#64 0#64 0#64

theorem witness_special_round_trip :
    encInf.valid = true ∧ isInf (asF64 encInf.port.x0) = true ∧
      ∃ t, exec .enc encInf = .next t ∧ t.responses = encInf.responses ++ [⟨.ok, 2#8, 0xC800000000000000#64⟩] :=
  ⟨rfl, by decide +kernel, _, rfl, by decide +kernel⟩

set_option exponentiation.threshold 4096 in
/-- K4 and 0.5: `SCALE_FWD = 2^7`, code 64. -/
theorem witness_round_trip :
    let s := onPort (some k4) 3#32 0x3FE0000000000000#64 0#64 0#64
    s.codec = some k4 ∧ k4.a = 0#64 ∧ k4.zeroOffset = 0#64 ∧ asF64 k4.scaleFwd = .fin false (2 ^ 1081) ∧
      asF64 k4.scaleRev = .fin false (2 ^ 1067) ∧ 1081 + 1067 = 2148 ∧ asF64 s.port.x0 = .fin false (2 ^ 1073) ∧
      fgt (asF64 s.port.x0) (asF64 k4.b) = false ∧ 64 = 2 ^ 1073 * 2 ^ 1081 / F64.unit / F64.unit ∧ 64 < 2 ^ 53 ∧
      64 < 0xC8 * 2 ^ (8 * k4.fieldWidth.bytes - 8) ∧
      reply (exec .enc s) = some ⟨.ok, 1#8, 0x4000000000000000#64⟩ := by decide +kernel

/-- Every `ENC` answers a next state, the one of the round trip among them. -/
theorem witness_round_trip_answers :
    ∃ t, exec .enc (onPort (some k4) 3#32 0x3FE0000000000000#64 0#64 0#64) = .next t :=
  (exec_end .enc _).imp fun _ h => h.1

theorem witness_rdcsr_reads : readWidth.codec = some k2 := rfl

theorem witness_rdcsr_undefined : 8 < (9#8).toNat ∧ 8 < (255#8).toNat := by decide

theorem witness_read_back :
    cfgUnit.port.x2 = BitVec.ofNat 64 Width.w1.bytes ∧
      exec .cfg cfgUnit =
        .next (deliver ⟨.ok, 0#8, 0#64⟩ (commit (rangeScale 0#64 0x3FF0000000000000#64 .w1 0) cfgUnit)) := ⟨rfl, rfl⟩

theorem witness_patterns : isNaN (asF64 0x000FFFFFFFFFFFFF#64) = false := by decide +kernel

theorem witness_binary64 : F64.isBinary64 (.fin false 1) := by
  refine ⟨?_, by decide⟩
  obtain ⟨e, he⟩ : ∃ e, e = 2098 := ⟨_, rfl⟩
  rw [limit_eq_pow he]
  exact Nat.one_lt_two_pow (by omega)

theorem witness_rounding : 0 < 3 := by decide

theorem witness_zero_and_nonzero_sums :
    signedMag true 0 + signedMag false 0 = 0 ∧ signedMag true 1 + signedMag true 1 ≠ 0 ∧
      signedMag false 5 - signedMag false 5 = 0 ∧ signedMag false 0 - signedMag false 1 ≠ 0 := by decide

theorem witness_divisors : (1 : Nat) ≠ 0 ∧ (0 : Nat) = 0 := by decide

theorem witness_u64 : 0 < 2 ^ 64 ∧ 2 ^ 64 - 1 < 2 ^ 64 := by decide

theorem witness_pow2 : 1023 ≤ 1023 ∧ 1024 ≤ 1024 ∧ 1074 ≤ 1074 ∧ 1075 ≤ 1075 := by decide

theorem witness_small_integers : 2 ^ 53 ≤ 2 ^ 53 := Nat.le_refl _

theorem witness_ln_negative : (1 : Nat) ≠ 0 := by decide

theorem witness_pack : [0x12#8, 0x34#8].length ≤ 8 := by decide

end Sys2Proof.Tests
end

section
/-! PROOFS. Patterns and data (R10): the fields of a pattern, the magnitudes they stand for, and that
`asF64` and `bitsOf` are inverse. -/

namespace Sys2Proof

/-- The pattern with sign `neg`, exponent bits `e` and fraction bits `f` (R10). -/
def fieldPattern (neg : Bool) (e f : Nat) : BitVec 64 :=
  BitVec.ofNat 64 ((if neg then 2 ^ 63 else 0) + (e * 2 ^ 52 + f))

section FieldPattern
variable (neg : Bool) {e f : Nat} (he : e < 2048) (hf : f < 2 ^ 52)
include he hf

theorem fieldPattern_toNat :
    (fieldPattern neg e f).toNat = (if neg then 2 ^ 63 else 0) + (e * 2 ^ 52 + f) := by
  rw [fieldPattern, BitVec.toNat_ofNat, Nat.mod_eq_of_lt]
  split <;> omega

theorem fieldPattern_sign : (fieldPattern neg e f).getLsbD 63 = neg := by
  rw [BitVec.getLsbD, Nat.testBit_eq_decide_div_mod_eq, fieldPattern_toNat neg he hf]
  cases neg <;> simp <;> omega

theorem fieldPattern_exponent : ((fieldPattern neg e f).extractLsb' 52 11).toNat = e := by
  rw [BitVec.extractLsb'_toNat, Nat.shiftRight_eq_div_pow, fieldPattern_toNat neg he hf]
  split <;> omega

theorem fieldPattern_fraction : ((fieldPattern neg e f).extractLsb' 0 52).toNat = f := by
  rw [BitVec.extractLsb'_toNat, Nat.shiftRight_eq_div_pow, fieldPattern_toNat neg he hf]
  split <;> omega

/-- `asF64` reads the fields of a pattern (R10). -/
theorem asF64_fieldPattern :
    asF64 (fieldPattern neg e f) =
      if e = 2047 then (if f = 0 then .inf neg else .nan) else F64.ofFields neg e f := by
  simp only [asF64, fieldPattern_sign neg he hf, fieldPattern_exponent neg he hf, fieldPattern_fraction neg he hf]

end FieldPattern

/-- Every pattern has its three fields (R10). -/
theorem exists_fieldPattern (b : BitVec 64) :
    ∃ neg e f, e < 2048 ∧ f < 2 ^ 52 ∧ b = fieldPattern neg e f := by
  have hb := b.isLt
  refine ⟨decide (2 ^ 63 ≤ b.toNat), b.toNat / 2 ^ 52 % 2048, b.toNat % 2 ^ 52, by omega, by omega, ?_⟩
  apply BitVec.eq_of_toNat_eq
  rw [fieldPattern_toNat _ (by omega) (by omega)]
  simp only [decide_eq_true_eq]
  split <;> omega

/-! ### The magnitude of an exponent and a fraction -/

/-- The magnitude that exponent bits `e` and fraction bits `f` stand for (R10): subnormal for `e = 0`. -/
def fieldMag (e f : Nat) : Nat := if e = 0 then f else (2 ^ 52 + f) * 2 ^ (e - 1)

theorem ofFields_eq_fieldMag (neg : Bool) (e f : Nat) : F64.ofFields neg e f = .fin neg (fieldMag e f) := by
  unfold F64.ofFields fieldMag
  split <;> rfl

/-- A normal significand times `2 ^ k` has its leading bit at `52 + k`. -/
theorem log2_significand {q : Nat} (hlo : 2 ^ 52 ≤ q) (hhi : q < 2 ^ 53) (k : Nat) : (q * 2 ^ k).log2 = 52 + k := by
  rw [Nat.log2_eq_iff (by positivity)]
  constructor
  · rw [Nat.pow_add]; exact Nat.mul_le_mul_right _ hlo
  · rw [show 52 + k + 1 = 53 + k by omega, Nat.pow_add]; exact Nat.mul_lt_mul_of_pos_right hhi (Nat.two_pow_pos k)

/-- `magBits` gives back the fields of a magnitude. -/
theorem magBits_fieldMag (e : Nat) {f : Nat} (hf : f < 2 ^ 52) : magBits (fieldMag e f) = e * 2 ^ 52 + f := by
  rcases Nat.eq_zero_or_pos e with rfl | he
  · rw [fieldMag, if_pos rfl, magBits, if_pos hf]; omega
  · have hlog := log2_significand (q := 2 ^ 52 + f) (by omega) (by omega) (e - 1)
    have hge : ¬ (2 ^ 52 + f) * 2 ^ (e - 1) < 2 ^ 52 :=
      Nat.not_lt.2 (Nat.le_trans (Nat.le_add_right _ f) (Nat.le_mul_of_pos_right _ (Nat.two_pow_pos _)))
    rw [fieldMag, if_neg (by omega), magBits, if_neg hge, hlog, Nat.add_sub_cancel_left,
      Nat.mul_div_cancel _ (Nat.two_pow_pos _)]
    omega

theorem fieldMag_fits (e : Nat) {f : Nat} (hf : f < 2 ^ 52) :
    fieldMag e f % 2 ^ ((fieldMag e f).log2 - 52) = 0 := by
  unfold fieldMag
  split
  · simpa using significand_fits (q := f) (by omega) 0
  · exact significand_fits (by omega) _

theorem lt_limit_of_lt_pow {m e : Nat} (hm : m < 2 ^ e) (he : e ≤ 2098) : m < F64.limit := by
  obtain ⟨l, hl⟩ : ∃ l, l = 2098 := ⟨_, rfl⟩
  rw [limit_eq_pow hl]
  exact Nat.lt_of_lt_of_le hm (Nat.pow_le_pow_right (by decide) (by omega))

theorem fieldMag_lt_limit {e f : Nat} (he : e < 2047) (hf : f < 2 ^ 52) : fieldMag e f < F64.limit := by
  have hlt : fieldMag e f < 2 ^ (53 + (e - 1)) := by
    rw [Nat.pow_add]
    unfold fieldMag
    split
    · exact Nat.lt_of_lt_of_le (by omega) (Nat.le_mul_of_pos_right (2 ^ 53) (Nat.two_pow_pos _))
    · exact Nat.mul_lt_mul_of_pos_right (by omega) (Nat.two_pow_pos _)
  exact lt_limit_of_lt_pow hlt (by omega)

/-- The leading 53 bits of a normal magnitude. -/
theorem significand_bounds {m : Nat} (hm : 2 ^ 52 ≤ m) :
    2 ^ 52 ≤ m / 2 ^ (m.log2 - 52) ∧ m / 2 ^ (m.log2 - 52) < 2 ^ 53 := by
  have hm0 : m ≠ 0 := by omega
  have hk : 52 ≤ m.log2 := (Nat.le_log2 hm0).2 hm
  rw [Nat.le_div_iff_mul_le (Nat.two_pow_pos _), Nat.div_lt_iff_lt_mul (Nat.two_pow_pos _), ← Nat.pow_add,
    ← Nat.pow_add, show 52 + (m.log2 - 52) = m.log2 by omega, show 53 + (m.log2 - 52) = m.log2 + 1 by omega]
  exact ⟨Nat.log2_self_le hm0, Nat.lt_log2_self⟩

theorem log2_lt_of_lt_limit {m : Nat} (hm : m ≠ 0) (hlim : m < F64.limit) : m.log2 < 2098 := by
  obtain ⟨l, hl⟩ : ∃ l, l = 2098 := ⟨_, rfl⟩
  rw [limit_eq_pow hl, ← Nat.log2_lt hm] at hlim
  omega

theorem exists_fieldMag {m : Nat} (hfit : m % 2 ^ (m.log2 - 52) = 0) (hlim : m < F64.limit) :
    ∃ e f, e < 2047 ∧ f < 2 ^ 52 ∧ m = fieldMag e f := by
  rcases Nat.lt_or_ge m (2 ^ 52) with hm | hm
  · exact ⟨0, m, by decide, hm, by simp [fieldMag]⟩
  · obtain ⟨hlo, hhi⟩ := significand_bounds hm
    have hlog := log2_lt_of_lt_limit (by omega) hlim
    refine ⟨m.log2 - 52 + 1, m / 2 ^ (m.log2 - 52) - 2 ^ 52, by omega, by omega, ?_⟩
    rw [fieldMag, if_neg (by omega), Nat.add_sub_cancel, Nat.add_sub_cancel' hlo,
      Nat.div_mul_cancel (Nat.dvd_of_mod_eq_zero hfit)]

/-- The finite magnitudes binary64 holds are those of its fields (R10). -/
theorem isBinary64_fin_iff (neg : Bool) (m : Nat) :
    (F64.fin neg m).isBinary64 ↔ ∃ e f, e < 2047 ∧ f < 2 ^ 52 ∧ m = fieldMag e f := by
  constructor
  · rintro ⟨hlim, hfit⟩; exact exists_fieldMag hfit hlim
  · rintro ⟨e, f, he, hf, rfl⟩; exact ⟨fieldMag_lt_limit he hf, fieldMag_fits e hf⟩

/-! ### Patterns of data -/

theorem bitsOf_fieldMag (n : NanPattern) (neg : Bool) (e : Nat) {f : Nat} (hf : f < 2 ^ 52) :
    bitsOf n (.fin neg (fieldMag e f)) = fieldPattern neg e f := by
  rw [bitsOf, magBits_fieldMag e hf]; rfl

theorem bitsOf_inf (n : NanPattern) (neg : Bool) : bitsOf n (.inf neg) = fieldPattern neg 2047 0 := by
  cases neg <;> rfl

theorem nanPattern_bits_eq (n : NanPattern) :
    n.bits = fieldPattern n.neg 2047 (n.fractionPred.val + 1) := by
  have hf := n.fractionPred.isLt
  apply BitVec.eq_of_toNat_eq
  rw [fieldPattern_toNat _ (by decide) (by omega), NanPattern.bits, BitVec.toNat_append,
    BitVec.toNat_append, ← Nat.shiftLeft_add_eq_or_of_lt (BitVec.isLt _),
    ← Nat.shiftLeft_add_eq_or_of_lt (BitVec.isLt _)]
  simp only [Nat.shiftLeft_eq, BitVec.toNat_ofNat]
  cases n.neg <;> simp <;> omega

theorem asF64_nanPattern (n : NanPattern) : asF64 n.bits = .nan := by
  have hf := n.fractionPred.isLt
  rw [nanPattern_bits_eq, asF64_fieldPattern _ (by decide) (by omega), if_pos rfl, if_neg (by omega)]

theorem asF64_isBinary64 (b : BitVec 64) : (asF64 b).isBinary64 := by
  obtain ⟨neg, e, f, he, hf, rfl⟩ := exists_fieldPattern b
  rw [asF64_fieldPattern neg he hf]
  split
  · split <;> trivial
  · rw [ofFields_eq_fieldMag, isBinary64_fin_iff]
    exact ⟨e, f, by omega, hf, rfl⟩

/-- Settles O50, by the fields of the pattern: `asF64` reads them and `bitsOf` writes them back. -/
theorem patternsAreThoseOfTheirData : Obligations.PatternsAreThoseOfTheirData := by
  intro b n hnan
  obtain ⟨neg, e, f, he, hf, rfl⟩ := exists_fieldPattern b
  rw [asF64_fieldPattern neg he hf] at hnan ⊢
  split at hnan
  case isTrue he' =>
    split at hnan
    case isTrue hf' => rw [if_pos he', if_pos hf', bitsOf_inf, he', hf']
    case isFalse => cases hnan
  case isFalse he' => rw [if_neg he', ofFields_eq_fieldMag, bitsOf_fieldMag n neg e hf]

/-- A datum binary64 holds is the datum of its pattern, whatever NaN pattern was drawn (R10). -/
theorem asF64_bitsOf {f : F64} (h : f.isBinary64) (n : NanPattern) : asF64 (bitsOf n f) = f := by
  cases f with
  | nan => exact asF64_nanPattern n
  | inf neg => rw [bitsOf_inf, asF64_fieldPattern neg (by decide) (by decide), if_pos rfl, if_pos rfl]
  | fin neg m =>
    obtain ⟨e, f, he, hf, rfl⟩ := (isBinary64_fin_iff neg m).1 h
    rw [bitsOf_fieldMag n neg e hf, asF64_fieldPattern neg (by omega) hf, if_neg (by omega), ofFields_eq_fieldMag]

/-- Settles O51, by the fields of the datum, with every NaN pattern reading as a NaN. -/
theorem dataAreThoseOfTheirPatterns : Obligations.DataAreThoseOfTheirPatterns :=
  ⟨fun _ n h => asF64_bitsOf h n, asF64_isBinary64⟩

end Sys2Proof
end

section
/-! PROOFS. Rounding to nearest, ties to even (R11, R16). -/

namespace Sys2Proof

/-- `q * 2 ^ k` and `(q + 1) * 2 ^ k` are neighbours among the magnitudes of at most 53 significant bits. -/
theorem no_fit_between {q k y : Nat} (hq : k = 0 ∨ 2 ^ 52 ≤ q) (hy : y % 2 ^ (y.log2 - 52) = 0) :
    y ≤ q * 2 ^ k ∨ (q + 1) * 2 ^ k ≤ y := by
  by_contra! ⟨hlo, hhi⟩
  have hdvd : 2 ^ k ∣ y := by
    rcases hq with rfl | hq
    · exact one_dvd y
    · have hpow : 2 ^ (52 + k) ≤ y := by
        rw [Nat.pow_add]; exact Nat.le_of_lt (Nat.lt_of_le_of_lt (Nat.mul_le_mul_right _ hq) hlo)
      have hlog : 52 + k ≤ y.log2 := (Nat.le_log2 (by omega)).2 hpow
      exact Nat.dvd_trans (Nat.pow_dvd_pow 2 (by omega)) (Nat.dvd_of_mod_eq_zero hy)
  obtain ⟨c, rfl⟩ := hdvd
  rw [Nat.mul_comm (2 ^ k)] at hlo hhi
  have hqc := Nat.lt_of_mul_lt_mul_right hlo
  have hcq := Nat.lt_of_mul_lt_mul_right hhi
  omega

/-- The significand of `q * 2 ^ k` is even where `q` is even, also where `q = 2 ^ 53` moves it up one place. -/
theorem even_significand {q k : Nat} (hq : k = 0 ∨ 2 ^ 52 ≤ q) (hle : q ≤ 2 ^ 53) (heven : q % 2 = 0) :
    q * 2 ^ k / 2 ^ ((q * 2 ^ k).log2 - 52) % 2 = 0 := by
  rcases Nat.lt_or_eq_of_le hle with hlt | rfl
  · suffices h : (q * 2 ^ k).log2 - 52 = k by rw [h, Nat.mul_div_cancel _ (Nat.two_pow_pos k)]; exact heven
    rcases Nat.lt_or_ge q (2 ^ 52) with hsmall | hbig
    · obtain rfl : k = 0 := by omega
      rcases Nat.eq_zero_or_pos q with rfl | hpos
      · rfl
      · have := (Nat.log2_lt (by omega)).2 hlt
        rw [Nat.pow_zero, Nat.mul_one]; omega
    · rw [log2_significand hbig hlt]; omega
  · rw [← Nat.pow_add, Nat.log2_two_pow, show 53 + k - 52 = k + 1 by omega, Nat.pow_div (by omega) (by decide),
      show 53 + k - (k + 1) = 51 + 1 by omega, Nat.pow_succ, Nat.mul_mod_left]

section Bracket
variable {num den lo hi r s : Nat} (hden : 0 < den)
include hden

/-- A magnitude at or below `lo` is at least as far as `lo` from a quotient `r / den` above `lo`. -/
theorem dist_below (hlo : num = lo * den + r) {y : Nat} (hy : y ≤ lo) :
    (r : Int) ≤ |(y : Int) * den - num| ∧ (|(y : Int) * den - num| = r ↔ y = lo) := by
  obtain ⟨d, rfl⟩ := Nat.exists_eq_add_of_le hy
  have hdist : (y : Int) * den - num = -(d * den + r) := by rw [hlo]; push_cast; ring
  rw [hdist, abs_neg, abs_of_nonneg (by positivity)]
  have hzero : (d : Int) * den = 0 ↔ d = 0 := by simp [hden.ne']
  exact ⟨le_add_of_nonneg_left (by positivity), by rw [add_eq_right, hzero]; omega⟩

/-- A magnitude at or above `hi` is at least as far as `hi` from a quotient `s / den` below `hi`. -/
theorem dist_above (hhi : num + s = hi * den) {y : Nat} (hy : hi ≤ y) :
    (s : Int) ≤ |(y : Int) * den - num| ∧ (|(y : Int) * den - num| = s ↔ y = hi) := by
  obtain ⟨d, rfl⟩ := Nat.exists_eq_add_of_le hy
  have hdist : ((hi + d : Nat) : Int) * den - num = d * den + s := by zify at hhi; push_cast; linear_combination -hhi
  rw [hdist, abs_of_nonneg (by positivity)]
  have hzero : (d : Int) * den = 0 ↔ d = 0 := by simp [hden.ne']
  exact ⟨le_add_of_nonneg_left (by positivity), by rw [add_eq_right, hzero]; omega⟩

variable (hlo : num = lo * den + r) (hhi : num + s = hi * den)
  (hgap : ∀ y : Nat, y % 2 ^ (y.log2 - 52) = 0 → y ≤ lo ∨ hi ≤ y)
include hlo hhi hgap

/-- The lower neighbour of a quotient is its rounding where it is nearer, or as near and even. -/
theorem nearestEven_lower (hfit : lo % 2 ^ (lo.log2 - 52) = 0) (hnear : r ≤ s)
    (htie : r = s → lo / 2 ^ (lo.log2 - 52) % 2 = 0) : nearestEven num den lo := by
  have hself := (dist_below hden hlo le_rfl).2.2 rfl
  refine ⟨hfit, fun y hy => ?_, fun y hy hne heq => htie ?_⟩
  · rw [hself]
    rcases hgap y hy with h | h
    · exact (dist_below hden hlo h).1
    · have := (dist_above hden hhi h).1; omega
  · rw [hself] at heq
    rcases hgap y hy with h | h
    · exact absurd ((dist_below hden hlo h).2.1 heq) hne
    · have := (dist_above hden hhi h).1; omega

/-- The upper neighbour of a quotient is its rounding where it is nearer, or as near and even. -/
theorem nearestEven_upper (hfit : hi % 2 ^ (hi.log2 - 52) = 0) (hnear : s ≤ r)
    (htie : s = r → hi / 2 ^ (hi.log2 - 52) % 2 = 0) : nearestEven num den hi := by
  have hself := (dist_above hden hhi le_rfl).2.2 rfl
  refine ⟨hfit, fun y hy => ?_, fun y hy hne heq => htie ?_⟩
  · rw [hself]
    rcases hgap y hy with h | h
    · have := (dist_below hden hlo h).1; omega
    · exact (dist_above hden hhi h).1
  · rw [hself] at heq
    rcases hgap y hy with h | h
    · have := (dist_below hden hlo h).1; omega
    · exact absurd ((dist_above hden hhi h).2.1 heq) hne

end Bracket

/-- `roundMag` rounds to nearest, ties to even (R11): it picks between the two neighbours of the quotient. -/
theorem roundMag_nearestEven (num : Nat) {den : Nat} (hden : 0 < den) : nearestEven num den (roundMag num den) := by
  obtain ⟨q, r, k, -, hnum, hr, hq53, hq52, hround⟩ := roundMag_eq num hden
  have hlo : num = q * 2 ^ k * den + r := by rw [hnum]; ring
  have hhi : num + (den * 2 ^ k - r) = (q + 1) * 2 ^ k * den := by
    rw [hnum, Nat.add_assoc, Nat.add_sub_cancel' hr.le]; ring
  have hgap (y : Nat) := no_fit_between (y := y) hq52
  rw [hround]
  split
  case isTrue hup =>
    refine nearestEven_upper hden hlo hhi hgap (significand_fits hq53 k) (by omega) fun htie => ?_
    exact even_significand (hq52.imp_right (by omega)) hq53 (by omega)
  case isFalse hdown =>
    refine nearestEven_lower hden hlo hhi hgap (significand_fits hq53.le k) (by omega) fun htie => ?_
    exact even_significand hq52 hq53.le (by omega)

/-- `roundF64` is the rounding once of `±num / den` (R11). -/
theorem roundF64_isRounding (neg : Bool) (num : Nat) {den : Nat} (hden : 0 < den) :
    (roundF64 neg num den).isRounding neg num den :=
  ⟨roundMag num den, roundMag_nearestEven num hden, rfl⟩

theorem signedMag_false (m : Nat) : signedMag false m = m := by simp [signedMag]

theorem signedMag_true (m : Nat) : signedMag true m = -m := by simp [signedMag]

theorem signedMag_not (t : Bool) (n : Nat) : signedMag (!t) n = -signedMag t n := by
  cases t <;> simp [signedMag]

/-- The sum of two finite data: an exact zero, or the exact sum rounded once (R11). -/
theorem fadd_fin (s t : Bool) (m n : Nat) :
    fadd (.fin s m) (.fin t n) =
      if signedMag s m + signedMag t n = 0 then .fin (s && t) 0
      else roundF64 (decide (signedMag s m + signedMag t n < 0)) (signedMag s m + signedMag t n).natAbs 1 := rfl

/-- The difference of two finite data, as the sum with the sign reversed (R11). -/
theorem fsub_fin (s t : Bool) (m n : Nat) :
    fsub (.fin s m) (.fin t n) =
      if signedMag s m - signedMag t n = 0 then .fin (s && !t) 0
      else roundF64 (decide (signedMag s m - signedMag t n < 0)) (signedMag s m - signedMag t n).natAbs 1 := by
  rw [fsub, fneg, fadd_fin, signedMag_not, sub_eq_add_neg]

theorem fmul_fin (s t : Bool) (m n : Nat) : fmul (.fin s m) (.fin t n) = roundF64 (s ^^ t) (m * n) F64.unit := rfl

theorem fdiv_fin (s t : Bool) (m n : Nat) :
    fdiv (.fin s m) (.fin t n) =
      if n = 0 then (if m = 0 then .nan else .inf (s ^^ t)) else roundF64 (s ^^ t) (m * F64.unit) n := rfl

/-- A datum that is zero for `z = 0` and otherwise `z` rounded once, as a sum and a difference are (R11). -/
theorem zero_or_isRounding {f : F64} {z : Int} {b : Bool}
    (h : f = if z = 0 then .fin b 0 else roundF64 (decide (z < 0)) z.natAbs 1) :
    (z = 0 → f = .fin b 0) ∧ (z ≠ 0 → f.isRounding (decide (z < 0)) z.natAbs 1) := by
  refine ⟨fun hz => by rw [h, if_pos hz], fun hz => ?_⟩
  rw [h, if_neg hz]
  exact roundF64_isRounding _ _ Nat.one_pos

/-- Settles O52: each primitive is its equation on finite data, and `roundF64` rounds to nearest, ties to even. -/
theorem roundingIsToNearestEven : Obligations.RoundingIsToNearestEven := by
  refine ⟨fun num den => roundMag_nearestEven num, fun s t m n => zero_or_isRounding (fadd_fin s t m n),
    fun s t m n => zero_or_isRounding (fsub_fin s t m n), fun s t m n => ?mul, fun s t m n => ?div,
    fun n _ => roundF64_isRounding _ _ Nat.one_pos⟩
  case mul => rw [fmul_fin]; exact roundF64_isRounding _ _ unit_pos
  case div =>
    rw [fdiv_fin]
    refine ⟨fun hn => ?_, fun hn hm => ?_, fun hn hm => ?_⟩
    · rw [if_neg hn]; exact roundF64_isRounding _ _ (Nat.pos_of_ne_zero hn)
    · rw [if_pos hn, if_neg hm]
    · rw [if_pos hn, if_pos hm]

end Sys2Proof
end

section
/-! PROOFS. What the primitives keep and give (R11, R13 to R16, R18): binary64 data, and whole numbers of ones. -/

namespace Sys2Proof

/-! ### Every primitive gives a binary64 datum -/

theorem zero_isBinary64 (neg : Bool) : (F64.fin neg 0).isBinary64 := ⟨limit_pos, Nat.zero_mod _⟩

theorem pow_isBinary64 (neg : Bool) {e : Nat} (he : e < 2098) : (F64.fin neg (2 ^ e)).isBinary64 :=
  ⟨lt_limit_of_lt_pow (Nat.pow_lt_pow_succ (by decide)) he, by simpa using significand_fits (q := 1) (by decide) e⟩

theorem roundF64_isBinary64 (neg : Bool) (num : Nat) {den : Nat} (hden : 0 < den) :
    (roundF64 neg num den).isBinary64 := by
  unfold roundF64
  dsimp only
  split
  case isTrue => trivial
  case isFalse h => exact ⟨Nat.lt_of_not_le h, roundMag_fits num hden⟩

theorem ofFields_isBinary64 (neg : Bool) {e f : Nat} (he : e < 2047) (hf : f < 2 ^ 52) :
    (F64.ofFields neg e f).isBinary64 := by
  rw [ofFields_eq_fieldMag, isBinary64_fin_iff]
  exact ⟨e, f, he, hf, rfl⟩

/-- What a sum is: a NaN, an infinity, or the sum of two finite data (R11). -/
theorem fadd_cases (x y : F64) :
    fadd x y = .nan ∨ (∃ s, fadd x y = .inf s) ∨ ∃ s m t n, x = .fin s m ∧ y = .fin t n := by
  match x, y with
  | .nan, y => exact .inl (fadd_nan_left y)
  | .inf s, .nan => exact .inl rfl
  | .inf s, .inf t =>
    rw [fadd]
    split
    · exact .inr (.inl ⟨s, rfl⟩)
    · exact .inl rfl
  | .inf s, .fin _ _ => exact .inr (.inl ⟨s, rfl⟩)
  | .fin _ _, .nan => exact .inl rfl
  | .fin _ _, .inf t => exact .inr (.inl ⟨t, rfl⟩)
  | .fin s m, .fin t n => exact .inr (.inr ⟨s, m, t, n, rfl, rfl⟩)

theorem fadd_isBinary64 (x y : F64) : (fadd x y).isBinary64 := by
  rcases fadd_cases x y with h | ⟨s, h⟩ | ⟨s, m, t, n, rfl, rfl⟩
  · rw [h]; trivial
  · rw [h]; trivial
  · rw [fadd_fin]
    split
    · exact zero_isBinary64 _
    · exact roundF64_isBinary64 _ _ Nat.one_pos

theorem fmul_isBinary64 (x y : F64) : (fmul x y).isBinary64 := by
  match x, y with
  | .nan, _ | .inf _, .nan | .fin _ _, .nan => simp [F64.isBinary64]
  | .inf _, .inf _ => trivial
  | .inf _, .fin _ _ | .fin _ _, .inf _ => rw [fmul]; split <;> trivial
  | .fin s m, .fin t n => rw [fmul_fin]; exact roundF64_isBinary64 _ _ unit_pos

theorem fdiv_isBinary64 (x y : F64) : (fdiv x y).isBinary64 := by
  match x, y with
  | .nan, _ | .inf _, .nan | .fin _ _, .nan => simp [F64.isBinary64]
  | .inf _, .inf _ | .inf _, .fin _ _ => trivial
  | .fin _ _, .inf _ => exact zero_isBinary64 _
  | .fin s m, .fin t n =>
    rw [fdiv_fin]
    split
    · split <;> trivial
    · exact roundF64_isBinary64 _ _ (Nat.pos_of_ne_zero ‹_›)

/-! ### Whole numbers of ones (R13) -/

/-- A binary64 magnitude of 2^52 or more is a whole number of ones. -/
theorem unit_dvd_of_large {m : Nat} (hfit : m % 2 ^ (m.log2 - 52) = 0) (hm : 2 ^ 52 * F64.unit ≤ m) :
    F64.unit ∣ m := by
  have hm0 : m ≠ 0 := by have := unit_pos; omega
  obtain ⟨u, hu⟩ : ∃ u, u = 1074 := ⟨_, rfl⟩
  rw [unit_eq_pow hu] at hm ⊢
  rw [← Nat.pow_add, ← Nat.le_log2 hm0] at hm
  exact Nat.dvd_trans (Nat.pow_dvd_pow 2 (by omega)) (Nat.dvd_of_mod_eq_zero hfit)

theorem wholeDown_of_dvd {m : Nat} (h : F64.unit ∣ m) : wholeDown m * F64.unit = m := Nat.div_mul_cancel h

theorem wholeUp_of_dvd {m : Nat} (h : F64.unit ∣ m) : wholeUp m * F64.unit = m := by
  obtain ⟨c, rfl⟩ := h
  have hpos := unit_pos
  rw [wholeUp, Nat.mul_add_div unit_pos, Nat.div_eq_of_lt (by omega), Nat.add_zero, Nat.mul_comm]

theorem wholeDown_le (m : Nat) : wholeDown m * F64.unit ≤ m := Nat.div_mul_le_self _ _

theorem lt_wholeDown (m : Nat) : m < wholeDown m * F64.unit + F64.unit := by
  rw [← Nat.succ_mul]; exact (Nat.div_lt_iff_lt_mul unit_pos).1 (Nat.lt_succ_self _)

theorem le_wholeUp (m : Nat) : m ≤ wholeUp m * F64.unit := by
  have hpos := unit_pos
  have h : m + (F64.unit - 1) < (wholeUp m + 1) * F64.unit :=
    (Nat.div_lt_iff_lt_mul unit_pos).1 (Nat.lt_succ_self (wholeUp m))
  rw [Nat.succ_mul] at h
  omega

theorem wholeUp_lt (m : Nat) : wholeUp m * F64.unit < m + F64.unit := by
  have hpos := unit_pos
  have h : wholeUp m * F64.unit ≤ m + (F64.unit - 1) := Nat.div_mul_le_self _ _
  omega

/-- Settles O54, by the bounds of `wholeDown` and `wholeUp`, which change places under a negative sign. -/
theorem floorAndCeilAreTheNearestIntegers : Obligations.FloorAndCeilAreTheNearestIntegers := by
  refine ⟨fun b m => ⟨_, _, rfl, rfl, ?_⟩, fun b => ⟨rfl, rfl⟩, rfl, rfl⟩
  have hdown := wholeDown_le m
  have hdown' := lt_wholeDown m
  have hup := le_wholeUp m
  have hup' := wholeUp_lt m
  cases b with
  | false =>
    simp only [signedMag_false, Bool.false_eq_true, if_false]
    refine ⟨?_, ?_, ?_, ?_⟩ <;> omega
  | true =>
    simp only [signedMag_true, if_true]
    refine ⟨?_, ?_, ?_, ?_⟩ <;> omega

/-- A number of ones up to 2^53 is a magnitude binary64 holds. -/
theorem ones_isBinary64 (neg : Bool) {c : Nat} (hc : c ≤ 2 ^ 53) : (F64.fin neg (c * F64.unit)).isBinary64 := by
  obtain ⟨u, hu⟩ : ∃ u, u = 1074 := ⟨_, rfl⟩
  rw [unit_eq_pow hu]
  have hlt : c * 2 ^ u < 2 ^ (54 + u) := by
    rw [Nat.pow_add]
    exact Nat.mul_lt_mul_of_pos_right (by omega) (Nat.two_pow_pos u)
  exact ⟨lt_limit_of_lt_pow hlt (by omega), significand_fits hc u⟩

/-- The integers next to a binary64 magnitude are in binary64: below 2^52 they are small, above it they are the
magnitude itself. -/
theorem wholes_isBinary64 (neg : Bool) {m c : Nat} (hm : (F64.fin neg m).isBinary64)
    (hc : c = wholeDown m ∨ c = wholeUp m) : (F64.fin neg (c * F64.unit)).isBinary64 := by
  rcases Nat.lt_or_ge m (2 ^ 52 * F64.unit) with hsmall | hlarge
  · have hup := wholeUp_lt m
    have hdown := wholeDown_le m
    have hlt : c * F64.unit < (2 ^ 52 + 1) * F64.unit := by
      rw [Nat.succ_mul]
      rcases hc with rfl | rfl <;> omega
    exact ones_isBinary64 neg (by have := Nat.lt_of_mul_lt_mul_right hlt; omega)
  · have hdvd := unit_dvd_of_large hm.2 hlarge
    rcases hc with rfl | rfl
    · rwa [wholeDown_of_dvd hdvd]
    · rwa [wholeUp_of_dvd hdvd]

theorem floor64_isBinary64 {x : F64} (hx : x.isBinary64) : (floor64 x).isBinary64 := by
  cases x with
  | nan => trivial
  | inf s => trivial
  | fin neg m => exact wholes_isBinary64 neg hx (by cases neg <;> simp)

theorem ceil64_isBinary64 {x : F64} (hx : x.isBinary64) : (ceil64 x).isBinary64 := by
  cases x with
  | nan => trivial
  | inf s => trivial
  | fin neg m => exact wholes_isBinary64 neg hx (by cases neg <;> simp)

/-! ### The logarithm and the power of two (R14, R15) -/

theorem ln2_isBinary64 : ln2.isBinary64 := by
  have h : ln2 = F64.ofFields false 1022 Config.ln2Fraction.toNat := by rw [ln2, F64.ofFields, if_neg (by decide)]
  rw [h]
  exact ofFields_isBinary64 _ (by decide) Config.ln2Fraction.isLt

theorem lnFree_isBinary64 (m : Nat) : (lnFree m).isBinary64 :=
  ofFields_isBinary64 _ (Nat.lt_trans (Fin.isLt _) (by decide)) (BitVec.isLt _)

theorem LN_isBinary64 (x : F64) : (LN x).isBinary64 := by
  cases x with
  | nan => trivial
  | inf neg => cases neg <;> trivial
  | fin neg m =>
    rw [LN]
    split; · trivial
    split; · trivial
    split; · exact zero_isBinary64 _
    split; · exact ln2_isBinary64
    exact lnFree_isBinary64 m

theorem pow2Int_isBinary64 (neg : Bool) (n : Nat) : (pow2Int neg n).isBinary64 := by
  unfold pow2Int
  split
  · split
    · exact pow_isBinary64 _ (by omega)
    · exact zero_isBinary64 _
  · split
    · exact pow_isBinary64 _ (by omega)
    · trivial

theorem POW2_isBinary64 (x : F64) : (POW2 x).isBinary64 := by
  cases x with
  | nan => trivial
  | inf neg => cases neg; exacts [trivial, zero_isBinary64 _]
  | fin neg m =>
    rw [POW2]
    split
    · exact pow2Int_isBinary64 _ _
    · exact asF64_isBinary64 _

/-- `POW2` of an integer (R15 (4)). -/
theorem POW2_ones (neg : Bool) (n : Nat) : POW2 (.fin neg (n * F64.unit)) = pow2Int neg n := by
  rw [POW2, if_pos (Nat.mul_mod_left _ _), Nat.mul_div_cancel _ unit_pos]

/-- Settles O55, by the four ranges of the exponent. -/
theorem pow2OfIntegersIsExact : Obligations.Pow2OfIntegersIsExact := by
  refine ⟨fun n hn => ?_, fun n hn => ?_, fun n hn => ?_, fun n hn => ?_, rfl, rfl, rfl⟩ <;> rw [POW2_ones]
  · simp [pow2Int, hn]
  · simp [pow2Int, Nat.not_le.2 hn]
  · simp [pow2Int, hn]
  · simp [pow2Int, Nat.not_le.2 hn]

/-- Settles O53: the arithmetic rounds to binary64 whatever its operands are; `floor64` and `ceil64` keep it. -/
theorem primitivesGiveBinary64 : Obligations.PrimitivesGiveBinary64 :=
  ⟨fun x y hx _ => ⟨fadd_isBinary64 x y, fadd_isBinary64 x (fneg y), fmul_isBinary64 x y, fdiv_isBinary64 x y,
    floor64_isBinary64 hx, ceil64_isBinary64 hx, LN_isBinary64 x, fdiv_isBinary64 _ _, POW2_isBinary64 x⟩,
    fun _ _ => roundF64_isBinary64 _ _ Nat.one_pos⟩

/-! ### Integers (R16, R18) -/

/-- Settles O57: an integer up to 2^53 is a binary64 magnitude, which rounds to itself. -/
theorem smallIntegersConvertExactly : Obligations.SmallIntegersConvertExactly := by
  intro n hn
  obtain ⟨hlim, hfit⟩ := ones_isBinary64 false hn
  rw [u64ToF64, roundF64, roundMag_exact hfit]
  exact if_neg (Nat.not_le.2 hlim)

/-- What the conversion of a finite datum is (R18). -/
theorem toU64_fin_eq_some (neg : Bool) (m d : Nat) :
    toU64 (.fin neg m) = some d ↔ d < 2 ^ 64 ∧ m = d * F64.unit ∧ (neg = true → d = 0) := by
  rw [toU64]
  constructor
  · intro h
    split at h
    case isTrue => cases h
    case isFalse hc =>
      push Not at hc
      obtain ⟨hneg, hlt, hmod⟩ := hc
      obtain rfl : m / F64.unit = d := Option.some.inj h
      refine ⟨(Nat.div_lt_iff_lt_mul unit_pos).2 hlt, (Nat.div_mul_cancel (Nat.dvd_of_mod_eq_zero hmod)).symm, ?_⟩
      intro hn
      rw [hneg hn, Nat.zero_div]
  · rintro ⟨hd, rfl, hneg⟩
    rw [if_neg, Nat.mul_div_cancel _ unit_pos]
    rintro (⟨hn, hm⟩ | hge | hmod)
    · exact hm (by rw [hneg hn, Nat.zero_mul])
    · exact absurd (Nat.le_of_mul_le_mul_right hge unit_pos) (Nat.not_le.2 hd)
    · exact hmod (Nat.mul_mod_left _ _)

/-- Settles O59, by the kind of datum. -/
theorem onlyU64IntegersConvert : Obligations.OnlyU64IntegersConvert := by
  intro f d
  cases f with
  | nan => simp [toU64]
  | inf neg => simp [toU64]
  | fin neg m =>
    rw [toU64_fin_eq_some]
    constructor
    · rintro ⟨hd, rfl, hneg⟩
      exact ⟨hd, neg, rfl, hneg⟩
    · rintro ⟨hd, b, heq, hneg⟩
      obtain ⟨rfl, rfl⟩ := F64.fin.inj heq
      exact ⟨hd, rfl, hneg⟩

/-! ### Integers, infinities and NaN stay so under sums (R26, R68) -/

/-- A whole number of ones rounds to one: its unit in the last place divides 1.0, and the rounding is exact, or is
a whole number of ones itself. -/
theorem unit_dvd_roundMag {num : Nat} (h : F64.unit ∣ num) : F64.unit ∣ roundMag num 1 := by
  obtain ⟨u, hu⟩ : ∃ u, u = 1074 := ⟨_, rfl⟩
  rw [unit_eq_pow hu] at h ⊢
  obtain ⟨q, r, k, -, hnum, hr, -, -, hround⟩ := roundMag_eq num Nat.one_pos
  rw [Nat.one_mul] at hnum hr hround
  rw [hround]
  rcases Nat.le_total u k with huk | hku
  · have hk : 2 ^ u ∣ 2 ^ k := Nat.pow_dvd_pow 2 huk
    split <;> exact Dvd.dvd.mul_left hk _
  · have hr0 : r = 0 := by
      have hk : 2 ^ k ∣ num := Nat.dvd_trans (Nat.pow_dvd_pow 2 hku) h
      have := Nat.mod_eq_zero_of_dvd hk
      rwa [hnum, Nat.mul_add_mod, Nat.mod_eq_of_lt hr] at this
    rw [if_neg (by omega), Nat.mul_comm]
    rwa [hnum, hr0, Nat.add_zero] at h

theorem roundF64_integral {num : Nat} (neg : Bool) (h : F64.unit ∣ num) :
    (roundF64 neg num 1).integralOrSpecial := by
  unfold roundF64
  dsimp only
  split
  · trivial
  · exact Nat.mod_eq_zero_of_dvd (unit_dvd_roundMag h)

theorem fneg_integral {x : F64} (hx : x.integralOrSpecial) : (fneg x).integralOrSpecial := by
  cases x <;> exact hx

theorem unit_dvd_signedMag (s : Bool) {m : Nat} (h : F64.unit ∣ m) : (F64.unit : Int) ∣ signedMag s m := by
  cases s
  · exact Int.natCast_dvd_natCast.2 h
  · exact Int.dvd_neg.2 (Int.natCast_dvd_natCast.2 h)

theorem fadd_integral {x y : F64} (hx : x.integralOrSpecial) (hy : y.integralOrSpecial) :
    (fadd x y).integralOrSpecial := by
  rcases fadd_cases x y with h | ⟨s, h⟩ | ⟨s, m, t, n, rfl, rfl⟩
  · rw [h]; trivial
  · rw [h]; trivial
  · rw [fadd_fin]
    split
    · exact Nat.zero_mod _
    · have hm := unit_dvd_signedMag s (Nat.dvd_of_mod_eq_zero hx)
      have hn := unit_dvd_signedMag t (Nat.dvd_of_mod_eq_zero hy)
      exact roundF64_integral _ (Int.natCast_dvd.1 (Int.dvd_add hm hn))

theorem fsub_integral {x y : F64} (hx : x.integralOrSpecial) (hy : y.integralOrSpecial) :
    (fsub x y).integralOrSpecial := fadd_integral hx (fneg_integral hy)

theorem ofNat_integral (n : Nat) : (F64.ofNat n).integralOrSpecial := Nat.mul_mod_left _ _

theorem ceil64_integral (x : F64) : (ceil64 x).integralOrSpecial := by
  cases x with
  | nan => trivial
  | inf s => trivial
  | fin neg m => exact Nat.mul_mod_left _ _

theorem F64.ofNat_zero : F64.ofNat 0 = .fin false 0 := by rw [F64.ofNat, Nat.zero_mul]

theorem F64.ofNat_one : F64.ofNat 1 = .fin false F64.unit := by rw [F64.ofNat, Nat.one_mul]

/-- Settles O58, by the value of `LN` at each kind of datum. -/
theorem lnRespectsItsSpecialValues : Obligations.LnRespectsItsSpecialValues := by
  refine ⟨LN_inf false, LN_zero, LN_inf true, fun m hm => LN_negative hm, LN_nan, ?_⟩
  rw [F64.ofNat_one, F64.ofNat_zero, LN_one]

end Sys2Proof
end

section
/-! PROOFS. The scale exponents of a configuration (R15, R68) and the packing of a field's bytes (R17, R40). -/

namespace Sys2Proof.Machine

/-- Settles O56: both exponents are differences of the integer `CODE_BITS` and a result of `ceil64`. -/
theorem scaleExponentsAreIntegers : Obligations.ScaleExponentsAreIntegers := by
  intro a b w
  have hd : (domainBitsOf (asF64 a) (asF64 b)).integralOrSpecial := ceil64_integral _
  exact ⟨fsub_integral (ofNat_integral _) hd, fsub_integral hd (ofNat_integral _)⟩

theorem beUnpack_lt (bs : List Byte) : beUnpack bs < 2 ^ (8 * bs.length) := by
  induction bs with
  | nil => simp
  | cons b bs ih =>
    calc beUnpack (b :: bs) < b.toNat * 2 ^ (8 * bs.length) + 2 ^ (8 * bs.length) := Nat.add_lt_add_left ih _
      _ = (b.toNat + 1) * 2 ^ (8 * bs.length) := (Nat.succ_mul ..).symm
      _ ≤ 2 ^ 8 * 2 ^ (8 * bs.length) := Nat.mul_le_mul_right _ b.isLt
      _ = 2 ^ (8 * (b :: bs).length) := by rw [← Nat.pow_add, List.length_cons]; congr 1; omega

/-- A field unpacks to its code modulo `2^(8n)` (R17). -/
theorem beUnpack_bePack (d n : Nat) : beUnpack (bePack d n) = d % 2 ^ (8 * n) := by
  induction n with
  | zero => simp [bePack_zero, Nat.mod_one]
  | succ n ih =>
    rw [bePack_succ, beUnpack_cons, ih, bePack_length, BitVec.toNat_ofNat, Nat.mod_mod, Nat.mul_succ, Nat.pow_add,
      Nat.mod_mul]
    ring

/-- Packing into `n` bytes drops multiples of `2^(8n)`. -/
theorem bePack_add_mul (c d n : Nat) : bePack (c * 2 ^ (8 * n) + d) n = bePack d n := by
  refine List.map_congr_left fun i hi => ?_
  have hi' := List.mem_range.1 hi
  rw [show 8 * n = 8 * (n - 1 - i) + 8 * (i + 1) by omega, Nat.pow_add, Nat.mul_left_comm, Nat.add_comm,
    Nat.add_mul_div_left _ _ (Nat.two_pow_pos _), show 8 * (i + 1) = 8 * i + 8 by omega, Nat.pow_add,
    ← Nat.mul_assoc, Nat.add_mul_mod_self_right]

theorem bePack_beUnpack (bs : List Byte) : bePack (beUnpack bs) bs.length = bs := by
  induction bs with
  | nil => rfl
  | cons b bs ih =>
    have hb := b.isLt
    rw [List.length_cons, bePack_succ, beUnpack_cons, bePack_add_mul, ih, Nat.add_comm,
      Nat.add_mul_div_right _ _ (Nat.two_pow_pos _), Nat.div_eq_of_lt (beUnpack_lt bs), Nat.zero_add,
      Nat.mod_eq_of_lt hb, BitVec.ofNat_toNat, BitVec.setWidth_eq]

/-- The bytes read back from a left-aligned field are those of its code (R17, R40). -/
theorem fieldBytes_alignLeft {bs : List Byte} (h : bs.length ≤ 8) :
    fieldBytes (alignLeft bs) bs.length = bePack (beUnpack bs) bs.length := by
  refine List.map_congr_left fun i hi => ?_
  have hi' := List.mem_range.1 hi
  have hlt : beUnpack bs * 2 ^ (64 - 8 * bs.length) < 2 ^ 64 := by
    calc _ < 2 ^ (8 * bs.length) * 2 ^ (64 - 8 * bs.length) :=
          Nat.mul_lt_mul_of_pos_right (beUnpack_lt bs) (Nat.two_pow_pos _)
      _ = 2 ^ 64 := by rw [← Nat.pow_add]; congr 1; omega
  apply BitVec.eq_of_toNat_eq
  rw [fieldByte, BitVec.extractLsb'_toNat, Nat.shiftRight_eq_div_pow, alignLeft, BitVec.toNat_ofNat,
    Nat.mod_eq_of_lt hlt, show 56 - 8 * i = 8 * (bs.length - 1 - i) + (64 - 8 * bs.length) by omega, Nat.pow_add,
    Nat.mul_div_mul_right _ _ (Nat.two_pow_pos _), BitVec.toNat_ofNat, Nat.mod_mod]

/-- Settles O60, by induction on the bytes for both directions of the packing. -/
theorem packedFieldsUnpack : Obligations.PackedFieldsUnpack :=
  ⟨fun d n => ⟨beUnpack_bePack d n, bePack_length d n⟩,
    fun bs h => (fieldBytes_alignLeft h).trans (bePack_beUnpack bs), bePack_beUnpack⟩

end Sys2Proof.Machine
end

section
/-! PROOFS. A ready block's step (R3, R44, R126) and `CFGP` of a unit ratio (R73). -/

namespace Sys2Proof.Machine

/-- A ready block runs its command or refuses its word (R44, R55): the other branches of a step need reset or an idle
port. -/
theorem step_of_ready {s : State} (h : s.ready) :
    (∃ i, decode s.port.cmd = .ok i ∧ step s = exec i s) ∨
    (∃ e, decode s.port.cmd = .error e ∧ step s = raise .illegalCommand s) := by
  obtain ⟨hpresented, hreset⟩ := h
  rcases step_cases s with ⟨hreset', -⟩ | ⟨-, -, hcmd⟩ | ⟨-, hpresented', -⟩
  · rw [hreset] at hreset'; cases hreset'
  · exact hcmd
  · rw [hpresented] at hpresented'; cases hpresented'

/-- Settles O4. -/
theorem stepRunsTheDecodedCommand : Obligations.StepRunsTheDecodedCommand := by
  intro s i hready _ hdec
  rcases step_of_ready hready with ⟨i', hdec', hstep⟩ | ⟨e, hdec', -⟩
  · obtain rfl : i' = i := Except.ok.inj (hdec'.symm.trans hdec)
    exact hstep
  · rw [hdec] at hdec'; cases hdec'

/-- The command of `s` is over in `t`: one response more, and the port, the reset input and the host's moves as they
were (R20, R126). -/
structure Answered (s t : State) : Prop where
  response : ∃ r, t.responses = s.responses ++ [r]
  presented : t.presented = false
  port : t.port = s.port
  resetLine : t.resetLine = s.resetLine
  host : t.host = s.host

theorem deliver_answered (r : Response) (s : State) : Answered s (deliver r s) := ⟨⟨r, rfl⟩, rfl, rfl, rfl, rfl⟩

/-- Every end of a command answers it (R130). -/
theorem CommandEnd.answered {i : Instr} {s t : State} (h : CommandEnd i s t) : Answered s t := by
  cases h with
  | error st => exact deliver_answered _ s
  | data rlen rdata => exact deliver_answered _ s
  | real rdata => exact ⟨⟨_, rfl⟩, rfl, rfl, rfl, rfl⟩
  | configured w => exact ⟨⟨_, rfl⟩, rfl, rfl, rfl, rfl⟩

theorem step_answered {s : State} (h : s.ready) : ∃ t, step s = .next t ∧ Answered s t := by
  rcases step_of_ready h with ⟨i, -, hstep⟩ | ⟨e, -, hstep⟩
  · obtain ⟨t, hexec, hend⟩ := exec_end i s
    exact ⟨t, hstep.trans hexec, hend.answered⟩
  · exact ⟨_, hstep, deliver_answered _ s⟩

/-- Settles O5, by the forms a command can end in. -/
theorem everyCommandEndsWithOneResponse : Obligations.EveryCommandEndsWithOneResponse := by
  intro s hready
  obtain ⟨t, hstep, ⟨r, hresponse⟩, hpresented, hport, hreset, hhost⟩ := step_answered hready
  exact ⟨t, r, hstep, hresponse, hpresented, hport, hreset.trans hready.2, hhost⟩

/-- `LOG2(1.0) = +0.0` for every `LN`, so the byte length of a unit ratio is `ceil64(1 / 8)` (R73, R77). -/
theorem byteLenOf_unit_ratio {min max p : F64} (h : fdiv (fsub max min) p = F64.ofNat 1) :
    byteLenOf min max p = F64.ofNat 1 := by
  rw [byteLenOf, h, F64.ofNat_one, LOG2_one]
  decide +kernel

theorem selectWidth_one : selectWidth (F64.ofNat 1) = .ok .w1 := by decide +kernel

/-- Settles O27: the byte length is 1, which selects one byte and configures with it. -/
theorem cfgpOfUnitRatioSelectsOneByte : Obligations.CfgpOfUnitRatioSelectsOneByte := by
  intro s hratio
  have hsel : selectWidth (cfgpByteLen s) = .ok .w1 := by
    rw [cfgpByteLen, byteLenOf_unit_ratio hratio, selectWidth_one]
  rcases execCfgp_cases s with ⟨st, hst, -⟩ | ⟨w, hw, hexec⟩
  · rw [hsel] at hst; cases hst
  · obtain rfl : Width.w1 = w := Except.ok.inj (hsel.symm.trans hw)
    exact ⟨_, hexec, rfl, rfl, rfl, rfl, rfl⟩

end Sys2Proof.Machine
end

section
/-! PROOFS. Reset (R36, R121), what a command can change (R22, R23, R31) and what reads back (R101, R102). -/

namespace Sys2Proof.Machine

/-! ### Reset -/

/-- Settles O7: `applyReset` is the whole step, and a block with no configuration reads as one. -/
theorem resetUnsetsTheConfiguration : Obligations.ResetUnsetsTheConfiguration := by
  intro s hreset
  rcases step_cases s with ⟨-, hstep⟩ | ⟨hreset', -⟩ | ⟨hreset', -⟩
  · have hread := readCsr_none (applyReset_codec s)
    exact ⟨applyReset s, hstep, rfl, fun r hr => by rw [hread, if_neg hr], hread .valid, rfl, rfl, rfl, rfl, rfl, rfl⟩
  all_goals rw [hreset] at hreset'; cases hreset'

/-- Settles O13. -/
theorem resetHoldsNoConfiguration : Obligations.ResetHoldsNoConfiguration := by
  have hread := readCsr_none (s := State.reset) rfl
  exact ⟨hread .valid, fun r hr => by rw [hread, if_neg hr]⟩

/-! ### What a command changes -/

/-- A next state of a command is one of the ends of R104 and R130. -/
theorem commandEnd_of_exec {i : Instr} {s t : State} (h : exec i s = .next t) : CommandEnd i s t := by
  obtain ⟨t', hexec, hend⟩ := exec_end i s
  obtain rfl : t' = t := Host.Outcome.next.inj (hexec.symm.trans h)
  exact hend

/-- A command leaves the registers as they are, or it is a configuration that ended with `OK` and wrote the whole group
from its own bounds (R31, R71). -/
theorem CommandEnd.codec_cases {i : Instr} {s t : State} (h : CommandEnd i s t) :
    t.codec = s.codec ∨
    ((i = .cfg ∨ i = .cfgp) ∧ t.responses = s.responses ++ [⟨.ok, 0#8, 0#64⟩] ∧
      ∃ w, t.codec = some (rangeScale s.port.x0 s.port.x1 w s.draws)) := by
  cases h with
  | error st => exact .inl rfl
  | data rlen rdata => exact .inl rfl
  | real rdata => exact .inl rfl
  | configured w hi => exact .inr ⟨hi, rfl, w, rfl⟩

/-- A configuration that ended with `OK` leaves the block configured (R23): its errors have other statuses. -/
theorem CommandEnd.valid_of_ok {i : Instr} {s t : State} (h : CommandEnd i s t) (hi : i = .cfg ∨ i = .cfgp)
    (hok : t.responses = s.responses ++ [⟨.ok, 0#8, 0#64⟩]) : t.valid = true := by
  cases h with
  | error st hst =>
    have hstatus : st = .ok := by simpa using hok
    exact absurd hstatus hst
  | data rlen rdata hne => exact absurd hi (not_or.2 hne)
  | real rdata hne => exact absurd hi (not_or.2 hne)
  | configured w => rfl

/-- Settles O18. -/
theorem onlySuccessfulConfigurationsWriteRegisters : Obligations.OnlySuccessfulConfigurationsWriteRegisters :=
  fun _ _ _ hexec hne => (commandEnd_of_exec hexec).codec_cases.resolve_left hne

/-- Settles O19: only a configuration writes the registers, and every end of a command leaves the rest. -/
theorem readingCommandsFrame : Obligations.ReadingCommandsFrame := by
  intro i s t hcfg hcfgp hexec
  have hend := commandEnd_of_exec hexec
  obtain ⟨hresponse, -, hport, hreset, hhost⟩ := hend.answered
  have hcodec := hend.codec_cases.resolve_right fun ⟨hi, _⟩ => hi.elim hcfg hcfgp
  exact ⟨hcodec, hport, hreset, hhost, hresponse⟩

/-- Settles O20: the registers stay set, and only a configuration that ended with `OK` sets them. -/
theorem validFollowsTheConfigurations : Obligations.ValidFollowsTheConfigurations := by
  intro i s t hexec
  have hend := commandEnd_of_exec hexec
  constructor
  · intro hvalid
    rcases hend.codec_cases with hsame | ⟨hi, hok, -⟩
    · rw [State.valid, hsame] at hvalid
      exact .inl hvalid
    · exact .inr ⟨hi, hok⟩
  · rintro (hvalid | ⟨hi, hok⟩)
    · rcases hend.codec_cases with hsame | ⟨-, -, w, hnew⟩
      · rwa [State.valid, hsame]
      · rw [State.valid, hnew]; rfl
    · exact hend.valid_of_ok hi hok

/-! ### What reads back -/

/-- `RDCSR` of a register's index on a configured block delivers the register (R101, R102). -/
theorem exec_rdcsr_configured {s : State} {k : Codec} (hk : s.codec = some k) {idx : BitVec 8} {r : Csr}
    (hidx : csrOfIndex idx = some r) : exec (.rdcsr idx) s = .next (deliver ⟨.ok, 8#8, k.read r⟩ s) := by
  rcases execRdcsr_cases idx s with ⟨hnone, -⟩ | ⟨r', hidx', hread⟩
  · rw [hidx] at hnone; cases hnone
  · obtain rfl : r = r' := Option.some.inj (hidx.symm.trans hidx')
    rw [readCsr_some hk] at hread
    rcases hread with ⟨hnone, -⟩ | ⟨v, hv, hexec⟩
    · cases hnone
    · obtain rfl := Option.some.inj hv
      exact hexec

/-- `CFG` of a legal width commits the configuration of its operands (R67, R68). -/
theorem exec_cfg_of_width {s : State} {w : Width} (hw : s.port.x2 = BitVec.ofNat 64 w.bytes) :
    exec .cfg s = configure s.port.x0 s.port.x1 w s := by
  have hwidth := widthOfWord_eq_some.2 hw
  rcases execCfg_cases s with ⟨hnone, -⟩ | ⟨w', hw', hexec⟩
  · rw [hwidth] at hnone; cases hnone
  · obtain rfl : w = w' := Option.some.inj (hwidth.symm.trans hw')
    exact hexec

/-- Settles O49: the configuration committed is that of the operands, and `RDCSR` delivers its registers. -/
theorem configuredBoundsReadBack : Obligations.ConfiguredBoundsReadBack := by
  intro s t w port hw hexec
  rw [exec_cfg_of_width hw, configure_eq] at hexec
  obtain rfl := Host.Outcome.next.inj hexec
  have hread {idx : BitVec 8} {r : Csr} (hidx : csrOfIndex idx = some r) :=
    exec_rdcsr_configured (s := { deliver ⟨.ok, 0#8, 0#64⟩ (commit (rangeScale s.port.x0 s.port.x1 w s.draws) s) with
      port := port }) rfl hidx
  exact ⟨⟨_, hread (r := .valid) rfl, rfl⟩, ⟨_, hread (r := .a) rfl, rfl⟩, ⟨_, hread (r := .b) rfl, rfl⟩,
    ⟨_, hread (r := .fieldWidth) rfl, rfl⟩, ⟨_, hread (r := .codeBits) rfl, rfl⟩⟩

end Sys2Proof.Machine
end

section
/-! PROOFS. Reciprocal powers of two (R15, R29) and the bounds of the zero offset (R11, R13, R30). -/

namespace Sys2Proof

/-! ### Rounding -/

/-- A quotient that is a magnitude binary64 holds rounds to it (R11): no other is as near. -/
theorem roundMag_mul_self {m den : Nat} (hden : 0 < den) (hfit : m % 2 ^ (m.log2 - 52) = 0) :
    roundMag (m * den) den = m := by
  obtain ⟨-, hnear, -⟩ := roundMag_nearestEven (m * den) hden
  have hself := hnear m hfit
  push_cast at hself
  rw [sub_self, abs_zero, abs_nonpos_iff, sub_eq_zero] at hself
  exact_mod_cast mul_right_cancel₀ (by exact_mod_cast hden.ne') hself

/-- Rounding does not pass a magnitude binary64 holds (R11): the rounded magnitude would be farther than it. -/
theorem roundMag_le {num m : Nat} (hle : num ≤ m) (hfit : m % 2 ^ (m.log2 - 52) = 0) : roundMag num 1 ≤ m := by
  obtain ⟨-, hnear, -⟩ := roundMag_nearestEven num Nat.one_pos
  have hdist := hnear m hfit
  by_contra! hlt
  rw [abs_of_nonneg (by omega), abs_of_nonneg (by omega)] at hdist
  omega

theorem one_isBinary64 (neg : Bool) : (F64.fin neg F64.unit).isBinary64 := by
  simpa using ones_isBinary64 neg (c := 1) (by decide)

/-! ### Powers of two -/

/-- `2^(i-1074) * 2^(j-1074) = 1` for `i + j = 2148`, exactly. -/
theorem fmul_reciprocal_pows {i j : Nat} (hij : i + j = 2148) :
    fmul (.fin false (2 ^ i)) (.fin false (2 ^ j)) = F64.ofNat 1 := by
  obtain ⟨hlim, hfit⟩ := one_isBinary64 false
  have hprod : 2 ^ i * 2 ^ j = F64.unit * F64.unit := by
    obtain ⟨u, hu⟩ : ∃ u, u = 1074 := ⟨_, rfl⟩
    rw [unit_eq_pow hu, ← Nat.pow_add, ← Nat.pow_add]
    congr 1
    omega
  rw [fmul_fin, hprod, roundF64, roundMag_mul_self unit_pos hfit, F64.ofNat_one]
  exact if_neg (Nat.not_le.2 hlim)

/-- A power of two that is finite and not zero (R15 (4)). -/
theorem pow2Int_eq_fin {neg s : Bool} {n m : Nat} (h : pow2Int neg n = .fin s m) (hm : m ≠ 0) :
    (neg = true ∧ n ≤ 1074 ∧ pow2Int neg n = .fin false (2 ^ (1074 - n))) ∨
    (neg = false ∧ n ≤ 1023 ∧ pow2Int neg n = .fin false (2 ^ (1074 + n))) := by
  rw [pow2Int] at h ⊢
  split at h
  case isTrue hneg =>
    split at h
    case isTrue hn => exact .inl ⟨hneg, hn, by rw [if_pos hneg, if_pos hn]⟩
    case isFalse => exact absurd (F64.fin.inj h).2.symm hm
  case isFalse hneg =>
    split at h
    case isTrue hn => exact .inr ⟨by simpa using hneg, hn, by rw [if_neg hneg, if_pos hn]⟩
    case isFalse => cases h

/-- `2^k` and `2^(-k)` are exact reciprocals wherever both are finite and not zero (R15). -/
theorem fmul_pow2Int_not {neg s t : Bool} {n m m' : Nat} (h : pow2Int neg n = .fin s m)
    (h' : pow2Int (!neg) n = .fin t m') (hm : m ≠ 0) (hm' : m' ≠ 0) :
    fmul (pow2Int neg n) (pow2Int (!neg) n) = F64.ofNat 1 := by
  rcases pow2Int_eq_fin h hm with ⟨rfl, hn, hp⟩ | ⟨rfl, hn, hp⟩ <;>
    rcases pow2Int_eq_fin h' hm' with ⟨hneg, hn', hp'⟩ | ⟨hneg, hn', hp'⟩
  · cases hneg
  · rw [hp, hp']; exact fmul_reciprocal_pows (by omega)
  · rw [hp, hp']; exact fmul_reciprocal_pows (by omega)
  · cases hneg

/-- `POW2` of an integer and of its negation are exact reciprocals wherever both are finite and not zero (R15). -/
theorem fmul_POW2_fneg {x : F64} (hx : x.integralOrSpecial) {s t : Bool} {m m' : Nat} (h : POW2 x = .fin s m)
    (h' : POW2 (fneg x) = .fin t m') (hm : m ≠ 0) (hm' : m' ≠ 0) : fmul (POW2 x) (POW2 (fneg x)) = F64.ofNat 1 := by
  cases x with
  | nan => cases h
  | inf neg =>
    cases neg with
    | false => cases h
    | true => cases h'
  | fin neg k =>
    obtain ⟨n, rfl⟩ := Nat.dvd_of_mod_eq_zero hx
    rw [Nat.mul_comm] at h h' ⊢
    rw [fneg, POW2_ones] at h' ⊢
    rw [POW2_ones] at h ⊢
    exact fmul_pow2Int_not h h' hm hm'

/-- `POW2` does not see the sign of a zero: both are the integer 0 (R15). -/
theorem POW2_zero (neg : Bool) : POW2 (.fin neg 0) = pow2Int false 0 := by
  have h := POW2_ones neg 0
  rw [Nat.zero_mul] at h
  rw [h]
  cases neg
  · rfl
  · rw [pow2Int, pow2Int, if_pos rfl, if_pos (Nat.zero_le _), if_neg (by decide), if_pos (Nat.zero_le _),
      Nat.sub_zero, Nat.add_zero]

theorem fneg_roundF64 (neg : Bool) (num den : Nat) : fneg (roundF64 neg num den) = roundF64 (!neg) num den := by
  unfold roundF64
  dsimp only
  split <;> rfl

/-- Exchanging the operands of a difference negates it, but for the sign of a zero, which `POW2` does not see. -/
theorem POW2_fsub_swap (x y : F64) : POW2 (fsub y x) = POW2 (fneg (fsub x y)) := by
  match x, y with
  | .nan, _ | _, .nan => simp
  | .inf s, .inf t => cases s <;> cases t <;> rfl
  | .inf _, .fin _ _ => rfl
  | .fin _ _, .inf t => cases t <;> rfl
  | .fin s m, .fin t n =>
    rw [fsub_fin, fsub_fin, ← neg_sub (signedMag s m) (signedMag t n)]
    generalize signedMag s m - signedMag t n = z
    rcases eq_or_ne z 0 with rfl | hz
    · rw [if_pos neg_zero, if_pos rfl, fneg, POW2_zero, POW2_zero]
    · have hsign : decide (-z < 0) = !decide (z < 0) := by rw [← decide_not, decide_eq_decide]; omega
      rw [if_neg (neg_ne_zero.2 hz), if_neg hz, Int.natAbs_neg, fneg_roundF64, hsign]

/-! ### Scales (R22) -/

theorem pow2Int_scaleLike (neg : Bool) (n : Nat) : (pow2Int neg n).scaleLike := by
  unfold pow2Int
  split
  · split
    · exact ⟨rfl, .inr ⟨_, rfl⟩⟩
    · exact ⟨rfl, .inl rfl⟩
  · split
    · exact ⟨rfl, .inr ⟨_, rfl⟩⟩
    · rfl

/-- `POW2` of an integer, an infinity or a NaN is a legal scale (R15, R22). -/
theorem POW2_scaleLike {x : F64} (hx : x.integralOrSpecial) : (POW2 x).scaleLike := by
  cases x with
  | nan => trivial
  | inf neg =>
    cases neg with
    | false => rfl
    | true => exact ⟨rfl, .inl rfl⟩
  | fin neg m =>
    obtain ⟨n, rfl⟩ := Nat.dvd_of_mod_eq_zero hx
    rw [Nat.mul_comm, POW2_ones]
    exact pow2Int_scaleLike neg n

/-! ### Zero offsets (R22, R30) -/

theorem zero_offsetLike : F64.offsetLike (.fin false 0) := ⟨rfl, Nat.zero_le _⟩

/-- A difference in [0, 1) rounds into [0, 1]: the rounding does not pass 1.0 (R11). -/
theorem roundF64_offsetLike {num : Nat} (h : num ≤ F64.unit) : (roundF64 false num 1).offsetLike := by
  obtain ⟨hlim, hfit⟩ := one_isBinary64 false
  have hle := roundMag_le h hfit
  rw [roundF64, if_neg (by omega)]
  exact ⟨rfl, hle⟩

/-- The signed magnitude of the floor is at or below that of the datum, by less than one (R13). -/
theorem signedMag_floor (neg : Bool) (m : Nat) :
    ∃ f, floor64 (.fin neg m) = .fin neg f ∧ signedMag neg f ≤ signedMag neg m ∧
      signedMag neg m < signedMag neg f + F64.unit := by
  obtain ⟨f, -, hfloor, -, hle, hlt, -, -⟩ := floorAndCeilAreTheNearestIntegers.1 neg m
  exact ⟨f * F64.unit, hfloor, hle, hlt⟩

/-- A datum less its floor, rounded once, is in [0, 1], or a NaN for an infinity or a NaN (R11, R13, R30). -/
theorem fsub_floor64_offsetLike (p : F64) : (fsub p (floor64 p)).offsetLike := by
  cases p with
  | nan => trivial
  | inf s => cases s <;> trivial
  | fin neg m =>
    obtain ⟨f, hfloor, hle, hlt⟩ := signedMag_floor neg m
    rw [hfloor, fsub_fin]
    split
    case isTrue => rw [Bool.and_not_self]; exact zero_offsetLike
    case isFalse => rw [decide_eq_false (by omega)]; exact roundF64_offsetLike (by omega)

end Sys2Proof
end

section
/-! PROOFS. The invariant of the block: configurations are derived and legal (R22, R26 to R30) and responses have a form
of R57. -/

namespace Sys2Proof.Machine

/-! ### The registers of a configuration -/

theorem domainBitsOf_isBinary64 (min max : F64) : (domainBitsOf min max).isBinary64 :=
  ceil64_isBinary64 (fdiv_isBinary64 _ _)

theorem zeroOffsetOf_isBinary64 (min max sF : F64) : (zeroOffsetOf min max sF).isBinary64 := by
  unfold zeroOffsetOf
  split
  · exact fadd_isBinary64 _ _
  · rw [F64.ofNat_zero]; exact zero_isBinary64 _

theorem zeroOffsetOf_offsetLike (min max sF : F64) : (zeroOffsetOf min max sF).offsetLike := by
  unfold zeroOffsetOf
  split
  · exact fsub_floor64_offsetLike _
  · rw [F64.ofNat_zero]; exact zero_offsetLike

section RangeScale
variable (a b : Word) (w : Width) (n : Nat)

/-! The datum each register of a new configuration holds (R68): storing it as a pattern loses nothing. -/

theorem rangeScale_domainBits :
    asF64 (rangeScale a b w n).domainBits = domainBitsOf (asF64 a) (asF64 b) :=
  asF64_bitsOf (domainBitsOf_isBinary64 _ _) _

theorem rangeScale_scaleFwd :
    asF64 (rangeScale a b w n).scaleFwd = scaleFwdOf w (domainBitsOf (asF64 a) (asF64 b)) :=
  asF64_bitsOf (POW2_isBinary64 _) _

theorem rangeScale_scaleRev :
    asF64 (rangeScale a b w n).scaleRev = scaleRevOf w (domainBitsOf (asF64 a) (asF64 b)) :=
  asF64_bitsOf (POW2_isBinary64 _) _

theorem rangeScale_zeroOffset :
    asF64 (rangeScale a b w n).zeroOffset =
      zeroOffsetOf (asF64 a) (asF64 b) (scaleFwdOf w (domainBitsOf (asF64 a) (asF64 b))) :=
  asF64_bitsOf (zeroOffsetOf_isBinary64 _ _ _) _

/-- A new configuration is derived from its range and width by rules R26 to R30. -/
theorem rangeScale_derived : (rangeScale a b w n).derived where
  domainBits := rangeScale_domainBits a b w n
  codeBits := rfl
  scaleFwd := by rw [rangeScale_scaleFwd, rangeScale_domainBits]; rfl
  scaleRev := by rw [rangeScale_scaleRev, rangeScale_domainBits]; rfl
  zeroOffset := by rw [rangeScale_zeroOffset, rangeScale_scaleFwd]; rfl

/-- A new configuration holds the legal values of R22. -/
theorem rangeScale_legal : (rangeScale a b w n).legal where
  codeBits := by cases w <;> simp [rangeScale, codecOf, codeBitsOf, Width.bytes]
  domainBits := by rw [rangeScale_domainBits]; exact ceil64_integral _
  scaleFwd := by rw [rangeScale_scaleFwd]; exact POW2_scaleLike (scaleExponentsAreIntegers a b w).1
  scaleRev := by rw [rangeScale_scaleRev]; exact POW2_scaleLike (scaleExponentsAreIntegers a b w).2
  zeroOffset := by rw [rangeScale_zeroOffset]; exact zeroOffsetOf_offsetLike _ _ _

end RangeScale

/-- Settles O33: the second exponent is the first one negated, and both are integers. -/
theorem scalesAreExactReciprocals : Obligations.ScalesAreExactReciprocals := by
  intro a b w n s t m m' hfwd hrev hm hm'
  rw [rangeScale_scaleFwd, scaleFwdOf] at hfwd ⊢
  rw [rangeScale_scaleRev, scaleRevOf, POW2_fsub_swap (F64.ofNat _)] at hrev ⊢
  exact fmul_POW2_fneg (scaleExponentsAreIntegers a b w).1 hfwd hrev hm hm'

/-! ### Responses -/

/-- A response with no data, of any status, has a form of R57. -/
theorem Response.legal_empty (st : Status) : Response.legal ⟨st, 0#8, 0#64⟩ :=
  ⟨fun _ => ⟨rfl, rfl⟩, fun _ => rfl, .inl rfl⟩

/-- A successful response of a width's bytes, the bits below them zero, has a form of R57. -/
theorem Response.legal_of_width {rlen : BitVec 8} {rdata : Word} (w : Width) (hlen : rlen = BitVec.ofNat 8 w.bytes)
    (hlow : rdata.toNat % 2 ^ (64 - 8 * w.bytes) = 0) : Response.legal ⟨.ok, rlen, rdata⟩ := by
  have hne : rlen ≠ 0#8 := by rw [hlen]; cases w <;> decide
  exact ⟨fun h => absurd rfl h, fun h => absurd h hne, .inr ⟨w, hlen, hlow⟩⟩

/-- A successful response of eight bytes has a form of R57. -/
theorem Response.legal_word (rdata : Word) : Response.legal ⟨.ok, 8#8, rdata⟩ :=
  Response.legal_of_width .w8 rfl (Nat.mod_one _)

/-- The bits below a left-aligned field are zero (R40, R88). -/
theorem alignLeft_low (bs : List Byte) : (alignLeft bs).toNat % 2 ^ (64 - 8 * bs.length) = 0 := by
  rw [alignLeft, BitVec.toNat_ofNat, Nat.mod_mod_of_dvd _ (Nat.pow_dvd_pow 2 (Nat.sub_le _ _)), Nat.mul_mod_left]

theorem Response.legal_field (w : Width) (c : Nat) :
    Response.legal ⟨.ok, BitVec.ofNat 8 w.bytes, alignLeft (bePack c w.bytes)⟩ := by
  have hlow := alignLeft_low (bePack c w.bytes)
  rw [bePack_length] at hlow
  exact Response.legal_of_width w rfl hlow

/-- The outcome is a next state with one response more than `s`, of a form of R57. -/
def AnswersLegally (s : State) (o : Outcome) : Prop :=
  ∃ t r, o = .next t ∧ t.responses = s.responses ++ [r] ∧ r.legal

section Answers
variable (s : State)

theorem raise_answersLegally (st : Status) : AnswersLegally s (raise st s) :=
  ⟨_, _, rfl, rfl, Response.legal_empty st⟩

theorem configure_answersLegally (a b : Word) (w : Width) : AnswersLegally s (configure a b w s) :=
  ⟨_, _, rfl, rfl, Response.legal_empty .ok⟩

theorem respondField_answersLegally (w : Width) (c : Nat) : AnswersLegally s (respondField w c s) :=
  ⟨_, _, rfl, rfl, Response.legal_field w c⟩

theorem respondWord_answersLegally (v : Word) : AnswersLegally s (respondOk 8#8 v s) :=
  ⟨_, _, rfl, rfl, Response.legal_word v⟩

theorem respondReal_answersLegally (v : F64) : AnswersLegally s (respondReal v s) :=
  ⟨_, _, rfl, rfl, Response.legal_word _⟩

/-- Every command ends with a response of a form of R57. -/
theorem exec_answersLegally (i : Instr) : AnswersLegally s (exec i s) := by
  cases i with
  | cfg =>
    rcases execCfg_cases s with ⟨-, h⟩ | ⟨w, -, h⟩ <;> rw [exec, h]
    · exact raise_answersLegally s _
    · exact configure_answersLegally s _ _ w
  | cfgp =>
    rcases execCfgp_cases s with ⟨st, -, h⟩ | ⟨w, -, h⟩ <;> rw [exec, h]
    · exact raise_answersLegally s st
    · exact configure_answersLegally s _ _ w
  | enc =>
    rcases execEnc_cases s with ⟨-, h⟩ | ⟨k, -, ⟨b, -, h⟩ | ⟨-, -, h⟩ | ⟨-, -, -, h⟩ | ⟨-, -, d, -, h⟩⟩ <;> rw [exec, h]
    · exact raise_answersLegally s _
    · exact respondField_answersLegally s _ _
    · exact raise_answersLegally s _
    · exact raise_answersLegally s _
    · exact respondField_answersLegally s _ _
  | dec len =>
    rcases execDec_cases len s with ⟨-, h⟩ | ⟨k, -, ⟨-, h⟩ | ⟨-, ⟨p, -, h⟩ | ⟨-, ⟨-, h⟩ | ⟨-, h⟩⟩⟩⟩ <;> rw [exec, h]
    · exact raise_answersLegally s _
    · exact raise_answersLegally s _
    · exact respondWord_answersLegally s p
    · exact raise_answersLegally s _
    · exact respondReal_answersLegally s _
  | rdcsr idx =>
    rcases execRdcsr_cases idx s with ⟨-, h⟩ | ⟨r, -, ⟨-, h⟩ | ⟨v, -, h⟩⟩ <;> rw [exec, h]
    · exact raise_answersLegally s _
    · exact raise_answersLegally s _
    · exact respondWord_answersLegally s v

end Answers

/-! ### The invariant -/

/-- A block with no configuration meets the invariant where its responses have the forms of R57. -/
theorem inv_of_no_codec {s : State} (hcodec : s.codec = none) (hresp : ∀ r ∈ s.responses, r.legal) : s.Inv where
  derived k hk := by rw [hcodec] at hk; cases hk
  legal k hk := by rw [hcodec] at hk; cases hk
  responses := hresp

/-- Settles O12: there is no configuration and no response. -/
theorem resetMeetsTheInvariant : Obligations.ResetMeetsTheInvariant :=
  inv_of_no_codec rfl fun _ hr => absurd hr List.not_mem_nil

/-- The invariant speaks of the registers and the responses only. -/
theorem State.Inv.of_eq {s t : State} (h : s.Inv) (hcodec : t.codec = s.codec) (hresp : t.responses = s.responses) :
    t.Inv := by
  obtain ⟨hderived, hlegal, hresponses⟩ := h
  exact ⟨hcodec ▸ hderived, hcodec ▸ hlegal, hresp ▸ hresponses⟩

/-- A legal response more keeps the responses legal. -/
theorem responses_legal_append {rs rs' : List Response} {r : Response} (h : ∀ x ∈ rs, x.legal) (hr : r.legal)
    (hrs' : rs' = rs ++ [r]) : ∀ x ∈ rs', x.legal := by
  subst hrs'
  intro x hx
  rcases List.mem_append.1 hx with hx | hx
  · exact h x hx
  · rw [List.mem_singleton.1 hx]; exact hr

/-- Every command keeps the invariant: it leaves the registers or commits a configuration (R31), and its response has a
form of R57. -/
theorem exec_keeps_inv {i : Instr} {s t : State} (h : s.Inv) (hexec : exec i s = .next t) : t.Inv := by
  obtain ⟨t', r, hexec', hresp, hr⟩ := exec_answersLegally s i
  obtain rfl := Host.Outcome.next.inj (hexec'.symm.trans hexec)
  have hresponses := responses_legal_append h.responses hr hresp
  rcases (commandEnd_of_exec hexec).codec_cases with hsame | ⟨-, -, w, hnew⟩
  · exact ⟨hsame ▸ h.derived, hsame ▸ h.legal, hresponses⟩
  · refine ⟨fun k hk => ?_, fun k hk => ?_, hresponses⟩ <;> obtain rfl := Option.some.inj (hnew.symm.trans hk)
    · exact rangeScale_derived _ _ w _
    · exact rangeScale_legal _ _ w _

theorem hostMove_codec (s : State) : (hostMove s).codec = s.codec := by
  unfold hostMove; split <;> rfl

theorem hostMove_responses (s : State) : (hostMove s).responses = s.responses := by
  unfold hostMove; split <;> rfl

/-- Settles O11, by the four things a step can do. -/
theorem stepKeepsTheInvariant : Obligations.StepKeepsTheInvariant := by
  intro s t hinv hstep
  rcases step_cases s with ⟨-, h⟩ | ⟨-, -, ⟨i, -, h⟩ | ⟨e, -, h⟩⟩ | ⟨-, -, h⟩ <;> rw [h] at hstep
  case inl =>
    obtain rfl := Host.Outcome.next.inj hstep
    exact inv_of_no_codec rfl hinv.responses
  case inr.inl.inl => exact exec_keeps_inv hinv hstep
  case inr.inl.inr =>
    obtain rfl := Host.Outcome.next.inj hstep
    exact ⟨hinv.derived, hinv.legal, responses_legal_append hinv.responses (Response.legal_empty _) rfl⟩
  case inr.inr =>
    obtain rfl := Host.Outcome.next.inj hstep
    exact hinv.of_eq (hostMove_codec s) (hostMove_responses s)

end Sys2Proof.Machine
end

section
/-! PROOFS. `DEC`, once per ending (R91 to R99), and the bits of `x[0]` it does not read (R42, R94). -/

namespace Sys2Proof.Machine

/-! ### What `DEC` does, case by case -/

section DecEndings
variable {s : State} {k : Codec} {len : BitVec 8} (hk : s.codec = some k)
include hk

/-- `LengthMismatch` (R93). -/
theorem execDec_of_other_length (hlen : len.toNat ≠ k.fieldWidth.bytes) :
    execDec len s = raise .lengthMismatch s := by
  simp [execDec, hk, hlen]

variable (hlen : len.toNat = k.fieldWidth.bytes)
include hlen

/-- A sentinel in byte 0 (R95). -/
theorem execDec_of_sentinel {p : Word} (hbyte : sentinelBits (fieldByte s.port.x0 0) = some p) :
    execDec len s = respondOk 8#8 p s := by
  simp [execDec, fieldOperand, hk, hlen, hbyte]

variable (hbyte : sentinelBits (fieldByte s.port.x0 0) = none)
include hbyte

/-- `DecodedOutOfRange` (R98). -/
theorem execDec_of_outside (hout : outsideRange k (decodedValue k s) = true) :
    execDec len s = raise .decodedOutOfRange s := by
  simp [execDec, fieldOperand, hk, hlen, hbyte, hout]

/-- The value of a regular field (R97, R99). -/
theorem execDec_of_inside (hin : outsideRange k (decodedValue k s) = false) :
    execDec len s = respondReal (decodedValue k s) s := by
  simp [execDec, fieldOperand, hk, hlen, hbyte, hin]

end DecEndings

/-! ### The bits a field does not reach -/

/-- Registers that agree in their top `8n` bits agree in each of the first `n` bytes. -/
theorem fieldByte_eq_of_top_eq {x y : BitVec 64} {n i : Nat} (hn : n ≤ 8) (hi : i < n)
    (htop : y.toNat / 2 ^ (64 - 8 * n) = x.toNat / 2 ^ (64 - 8 * n)) : fieldByte y i = fieldByte x i := by
  apply BitVec.eq_of_toNat_eq
  rw [fieldByte, fieldByte, BitVec.extractLsb'_toNat, BitVec.extractLsb'_toNat, Nat.shiftRight_eq_div_pow,
    Nat.shiftRight_eq_div_pow, show 56 - 8 * i = (64 - 8 * n) + 8 * (n - 1 - i) by omega, Nat.pow_add,
    ← Nat.div_div_eq_div_mul, ← Nat.div_div_eq_div_mul, htop]

theorem fieldBytes_eq_of_top_eq {x y : BitVec 64} {n : Nat} (hn : n ≤ 8)
    (htop : y.toNat / 2 ^ (64 - 8 * n) = x.toNat / 2 ^ (64 - 8 * n)) : fieldBytes y n = fieldBytes x n :=
  List.map_congr_left fun _ hi => fieldByte_eq_of_top_eq hn (List.mem_range.1 hi) htop

/-- The state with another word in `x[0]`, the register that carries the field (R53). -/
def State.withX0 (s : State) (y : Word) : State := { s with port := { s.port with x0 := y } }

@[simp] theorem withX0_codec (s : State) (y : Word) : (s.withX0 y).codec = s.codec := rfl
@[simp] theorem withX0_x0 (s : State) (y : Word) : (s.withX0 y).port.x0 = y := rfl

/-- The value decoded depends on the bytes of the field only (R94, R97). -/
theorem decodedValue_withX0 {s : State} {k : Codec} {y : Word}
    (hfield : fieldBytes y k.fieldWidth.bytes = fieldBytes s.port.x0 k.fieldWidth.bytes) :
    decodedValue k (s.withX0 y) = decodedValue k s := by
  simp only [decodedValue, fieldOperand, withX0_x0, hfield]

/-- Settles O43: byte 0 and the value depend on the field's bytes only, so `DEC` takes the same one of its endings. -/
theorem decIgnoresBitsBelowTheField : Obligations.DecIgnoresBitsBelowTheField := by
  intro s t k len y hk htop hexec
  have hbyte : fieldByte (s.withX0 y).port.x0 0 = fieldByte s.port.x0 0 :=
    fieldByte_eq_of_top_eq (bytes_le _) (bytes_pos _) htop
  have hvalue : decodedValue k (s.withX0 y) = decodedValue k s :=
    decodedValue_withX0 (fieldBytes_eq_of_top_eq (bytes_le _) htop)
  have hk' : (s.withX0 y).codec = some k := (withX0_codec s y).trans hk
  rcases execDec_cases len s with ⟨hnone, -⟩ | ⟨k', hsome, hend⟩
  · rw [hk] at hnone; cases hnone
  obtain rfl := Option.some.inj (hk.symm.trans hsome)
  rcases hend with ⟨hlen, h⟩ | ⟨hlen, ⟨p, hp, h⟩ | ⟨hp, ⟨hout, h⟩ | ⟨hin, h⟩⟩⟩ <;>
    obtain rfl := Host.Outcome.next.inj (h.symm.trans hexec)
  · exact execDec_of_other_length hk' hlen
  · exact execDec_of_sentinel hk' hlen (hbyte ▸ hp)
  · exact execDec_of_outside hk' hlen (hbyte ▸ hp) (hvalue ▸ hout)
  · rw [← hvalue]
    exact execDec_of_inside hk' hlen (hbyte ▸ hp) (hvalue ▸ hin)

end Sys2Proof.Machine
end

section
/-! PROOFS. The command word: the decoder and the encoder agree (R51, R52, R55), and the words of R55 end with
`IllegalCommand`. -/

namespace Sys2Proof

open Machine

/-! ### The fields of a word -/

section Fields
variable (w : BitVec 32)

theorem opField_toNat : (opField w).toNat = w.toNat % 16 := by
  simp [opField]

theorem rsv0Field_toNat : (rsv0Field w).toNat = w.toNat / 16 % 16 := by
  simp [rsv0Field, Nat.shiftRight_eq_div_pow]

theorem immField_toNat : (immField w).toNat = w.toNat / 256 % 256 := by
  simp [immField, Nat.shiftRight_eq_div_pow]

theorem rsv1Field_toNat : (rsv1Field w).toNat = w.toNat / 65536 := by
  have hw := w.isLt
  simp only [rsv1Field, BitVec.extractLsb'_toNat, Nat.shiftRight_eq_div_pow]
  omega

theorem rsv0Field_eq_zero : rsv0Field w = 0#4 ↔ w.toNat / 16 % 16 = 0 := by
  rw [← BitVec.toNat_inj, rsv0Field_toNat]; rfl

theorem rsv1Field_eq_zero : rsv1Field w = 0#16 ↔ w.toNat / 65536 = 0 := by
  rw [← BitVec.toNat_inj, rsv1Field_toNat]; rfl

/-- A word with zero reserved fields is packed from its other two (R51). -/
theorem packCommand_fields (h0 : rsv0Field w = 0#4) (h1 : rsv1Field w = 0#16) :
    packCommand (opField w) (immField w) = w := by
  rw [rsv0Field_eq_zero] at h0
  rw [rsv1Field_eq_zero] at h1
  apply BitVec.eq_of_toNat_eq
  rw [Laws.packCommand_toNat, opField_toNat, immField_toNat]
  omega

end Fields

/-! ### The operation -/

/-- The operation of a packed word is all the decoder looks at: its reserved fields are zero. -/
theorem decode_packCommand (op : BitVec 4) (imm : BitVec 8) : decode (packCommand op imm) = decodeOp op imm := by
  simp [decode, Laws.rsv0Field_packCommand, Laws.rsv1Field_packCommand, Laws.opField_packCommand,
    Laws.immField_packCommand]

/-- A word is illegal by a reserved field, or it is packed and its operation decides (R55). -/
theorem decode_cases (w : BitVec 32) :
    ((rsv0Field w ≠ 0#4 ∨ rsv1Field w ≠ 0#16) ∧ ∃ e, decode w = .error e) ∨
    (rsv0Field w = 0#4 ∧ rsv1Field w = 0#16 ∧ packCommand (opField w) (immField w) = w ∧
      decode w = decodeOp (opField w) (immField w)) := by
  by_cases h0 : rsv0Field w = 0#4
  · by_cases h1 : rsv1Field w = 0#16
    · exact .inr ⟨h0, h1, packCommand_fields w h0 h1, by simp [decode, h0, h1]⟩
    · exact .inl ⟨.inr h1, .rsv1NotZero, by simp [decode, h0, h1]⟩
  · exact .inl ⟨.inl h0, _, if_pos h0⟩

/-- The operation and `IMM8` of a word that is no command (R55 (1), (3), (4)). -/
def illegalOp (op imm : Nat) : Prop :=
  op = 0 ∨ 6 ≤ op ∨ (1 ≤ op ∧ op ≤ 3 ∧ imm ≠ 0) ∨ (op = 5 ∧ 8 < imm)

/-- What an operation decodes to: a well-formed instruction with these fields, or an error exactly for the fields of
R55. -/
theorem decodeOp_cases (op : BitVec 4) (imm : BitVec 8) :
    (illegalOp op.toNat imm.toNat ∧ ∃ e, decodeOp op imm = .error e) ∨
    (¬ illegalOp op.toNat imm.toNat ∧
      ∃ i, decodeOp op imm = .ok i ∧ i.wellFormed = true ∧ encode i = packCommand op imm) := by
  have himm : imm.toNat = 0 ↔ imm = 0#8 := by rw [← BitVec.toNat_inj]; rfl
  have hop {n : Nat} (h : op.toNat = n) : op = BitVec.ofNat 4 n := by rw [← h, BitVec.ofNat_toNat, BitVec.setWidth_eq]
  unfold decodeOp illegalOp
  split
  case h_1 h | h_2 h | h_3 h =>
    split
    case isTrue h0 =>
      have h0' := himm.2 h0
      exact .inr ⟨by omega, _, rfl, rfl, by rw [hop h, h0]; rfl⟩
    case isFalse h0 =>
      have h0' := mt himm.1 h0
      exact .inl ⟨by omega, _, rfl⟩
  case h_4 h => exact .inr ⟨by omega, _, rfl, rfl, by rw [hop h]; rfl⟩
  case h_5 h =>
    split
    case isTrue h8 => exact .inr ⟨by omega, _, rfl, decide_eq_true h8, by rw [hop h]; rfl⟩
    case isFalse h8 => exact .inl ⟨by omega, _, rfl⟩
  case h_6 h1 h2 h3 h4 h5 =>
    rw [imp_false] at h1 h2 h3 h4 h5
    exact .inl ⟨by omega, _, rfl⟩

/-- A well-formed instruction is what its word decodes to (R65). -/
theorem decode_encode {i : Instr} (h : i.wellFormed = true) : decode (encode i) = .ok i := by
  cases i with
  | cfg | cfgp | enc | dec len => exact decode_packCommand _ _
  | rdcsr idx => exact (decode_packCommand _ _).trans (if_pos (of_decide_eq_true h))

/-- Settles O1: a packed word is the word of the instruction its operation decodes to, and packing loses no field. -/
theorem decodeAcceptsExactlyTheEncodings : Obligations.DecodeAcceptsExactlyTheEncodings := by
  intro w i
  constructor
  · intro hdec
    rcases decode_cases w with ⟨-, e, he⟩ | ⟨-, -, hpack, hop⟩
    · rw [he] at hdec; cases hdec
    · rcases decodeOp_cases (opField w) (immField w) with ⟨-, e, he⟩ | ⟨-, i', hi', hwf, henc⟩
      · rw [hop, he] at hdec; cases hdec
      · obtain rfl : i' = i := Except.ok.inj (hi'.symm.trans (hop.symm.trans hdec))
        exact ⟨hwf, henc.trans hpack⟩
  · rintro ⟨hwf, rfl⟩
    exact decode_encode hwf

/-- Settles O2: each word is the encoding of its command. -/
theorem wordsOfRuleR65Decode : Obligations.WordsOfRuleR65Decode :=
  ⟨decode_encode (i := .cfg) rfl, decode_encode (i := .cfgp) rfl, decode_encode (i := .enc) rfl,
    decode_encode (i := .dec 4#8) rfl, decode_encode (i := .rdcsr 6#8) rfl⟩

/-! ### The illegal words -/

/-- The illegal words as numbers: a nonzero reserved field or an illegal operation (R55). -/
def illegalWord (n : Nat) : Prop :=
  n / 16 % 16 ≠ 0 ∨ n / 65536 ≠ 0 ∨ illegalOp (n % 16) (n / 256 % 256)

/-- The decoder refuses exactly the words of R55. -/
theorem decode_illegal_cases (w : BitVec 32) :
    (illegalWord w.toNat ∧ ∃ e, decode w = .error e) ∨ (¬ illegalWord w.toNat ∧ ∃ i, decode w = .ok i) := by
  unfold illegalWord
  rw [← opField_toNat, ← immField_toNat]
  rcases decode_cases w with ⟨hrsv, herr⟩ | ⟨h0, h1, -, hop⟩
  · rw [Ne, Ne, rsv0Field_eq_zero, rsv1Field_eq_zero] at hrsv
    exact .inl ⟨hrsv.elim .inl (.inr ∘ .inl), herr⟩
  · rw [rsv0Field_eq_zero] at h0
    rw [rsv1Field_eq_zero] at h1
    rw [hop]
    rcases decodeOp_cases (opField w) (immField w) with ⟨hill, herr⟩ | ⟨hleg, i, hi, -, -⟩
    · exact .inl ⟨.inr (.inr hill), herr⟩
    · exact .inr ⟨by simp [h0, h1, hleg], i, hi⟩

/-- Settles O3, by the step of a ready block on a word the decoder refuses or accepts. -/
theorem illegalWordsEndWithIllegalCommand : Obligations.IllegalWordsEndWithIllegalCommand := by
  intro s hready n illegal
  have hiff : illegal ↔ illegalWord n := by
    simp only [illegal, illegalWord, illegalOp]
    omega
  rw [hiff]
  rcases decode_illegal_cases s.port.cmd with ⟨hill, e, he⟩ | ⟨hleg, i, hi⟩
  · refine ⟨fun _ => ?_, fun hleg => absurd hill hleg⟩
    rcases step_of_ready hready with ⟨i, hi, -⟩ | ⟨-, -, hstep⟩
    · rw [he] at hi; cases hi
    · exact hstep
  · obtain ⟨hwf, -⟩ := (decodeAcceptsExactlyTheEncodings _ _).1 hi
    exact ⟨fun hill => absurd hill hleg,
      fun _ => ⟨i, hwf, hi, stepRunsTheDecodedCommand s i hready hwf hi⟩⟩

end Sys2Proof
end

section
/-! PROOFS. How a command ends: with an error and no effect, or with `OK` (R57, R104, R113), and which statuses fault a
run (R58, R104). -/

namespace Sys2Proof.Machine

/-! ### Failure or success -/

/-- In `t` the command of `s` ended with an error and nothing else (R57, R104, R113). -/
def Failed (s t : State) : Prop := ∃ st, st ≠ .ok ∧ t = deliver ⟨st, 0#8, 0#64⟩ s

/-- In `t` the command of `s` ended with `OK` (R57). -/
def Succeeded (s t : State) : Prop := ∃ r : Response, r.status = .ok ∧ t.responses = s.responses ++ [r]

theorem CommandEnd.failed_or_succeeded {i : Instr} {s t : State} (h : CommandEnd i s t) :
    Failed s t ∨ Succeeded s t := by
  cases h with
  | error st hst => exact .inl ⟨st, hst, rfl⟩
  | data rlen rdata => exact .inr ⟨_, rfl, rfl⟩
  | real rdata => exact .inr ⟨_, rfl, rfl⟩
  | configured w => exact .inr ⟨_, rfl, rfl⟩

/-- A presented command, of any word, fails or succeeds (R130). -/
theorem step_failed_or_succeeded {s t : State} (h : s.ready) (hstep : step s = .next t) :
    Failed s t ∨ Succeeded s t := by
  rcases step_of_ready h with ⟨i, -, hexec⟩ | ⟨e, -, hraise⟩
  · exact (commandEnd_of_exec (hexec.symm.trans hstep)).failed_or_succeeded
  · exact .inl ⟨.illegalCommand, nofun, (Host.Outcome.next.inj (hraise.symm.trans hstep)).symm⟩

/-- Without a command to run a step delivers no response (R121, R126). -/
theorem step_responses_of_not_ready {s t : State} (h : ¬ s.ready) (hstep : step s = .next t) :
    t.responses = s.responses := by
  rcases step_cases s with ⟨-, hreset⟩ | ⟨hline, hpresented, -⟩ | ⟨-, -, hhost⟩
  · obtain rfl := Host.Outcome.next.inj (hreset.symm.trans hstep); rfl
  · exact absurd ⟨hpresented, hline⟩ h
  · obtain rfl := Host.Outcome.next.inj (hhost.symm.trans hstep)
    exact hostMove_responses s

/-- Settles O17: a command with an error response did not succeed, so it failed, and failing is only a response. -/
theorem failedCommandsChangeNothing : Obligations.FailedCommandsChangeNothing := by
  intro s t r hready hstep hresp hr
  rcases step_failed_or_succeeded hready hstep with ⟨st, -, rfl⟩ | ⟨r', hok, hresp'⟩
  · obtain rfl : ⟨st, 0#8, 0#64⟩ = r := by simpa using hresp
    rfl
  · obtain rfl : r = r' := by simpa using hresp.symm.trans hresp'
    exact absurd hok hr

/-! ### Statuses and run faults -/

/-- The status of a code (R58). -/
def Status.ofCode (c : BitVec 8) : Option Status :=
  match c.toNat with
  | 0x00 => some .ok
  | 0x01 => some .invalidFieldWidth
  | 0x02 => some .precisionUnrepresentable
  | 0x03 => some .outOfRange
  | 0x04 => some .lengthMismatch
  | 0x05 => some .decodedOutOfRange
  | 0x10 => some .notConfigured
  | 0x11 => some .codeUnrepresentable
  | 0x12 => some .illegalCommand
  | _ => none

theorem Status.ofCode_code (st : Status) : Status.ofCode st.code = some st := by cases st <;> rfl

theorem Status.code_injective {a b : Status} (h : a.code = b.code) : a = b :=
  Option.some.inj ((ofCode_code a).symm.trans ((congrArg ofCode h).trans (ofCode_code b)))

theorem Status.isRunFault_iff (st : Status) :
    st.isRunFault = true ↔ st = .notConfigured ∨ st = .codeUnrepresentable ∨ st = .illegalCommand := by
  cases st <;> simp [isRunFault]

theorem runFaulted_of_response {s t : State} {r : Response} (h : t.responses = s.responses ++ [r]) :
    t.runFaulted = (s.runFaulted || r.status.isRunFault) := by
  simp [State.runFaulted, h]

/-- A step faults an unfaulted run only by an error response whose status is a run fault (R104). -/
theorem failed_of_newly_faulted {s t : State} (hs : s.runFaulted = false) (hstep : step s = .next t)
    (ht : t.runFaulted = true) : ∃ st : Status, st.isRunFault = true ∧ t = deliver ⟨st, 0#8, 0#64⟩ s := by
  by_cases hready : s.ready
  · rcases step_failed_or_succeeded hready hstep with ⟨st, -, rfl⟩ | ⟨r, hok, hresp⟩
    · rw [runFaulted_of_response (deliver_responses _ s), hs, Bool.false_or] at ht
      exact ⟨st, ht, rfl⟩
    · rw [runFaulted_of_response hresp, hs, hok] at ht; cases ht
  · rw [State.runFaulted, step_responses_of_not_ready hready hstep] at ht
    exact absurd ht (Bool.eq_false_iff.1 hs)

/-- Settles O15: `Status.ofCode` inverts the codes, and a run is faulted by the status of a response. -/
theorem onlyTheThreeAddedStatusesFaultARun : Obligations.OnlyTheThreeAddedStatusesFaultARun := by
  refine ⟨⟨rfl, rfl, rfl, rfl, rfl, rfl, rfl, rfl, rfl, fun _ _ => Status.code_injective⟩, ?newlyFaulted, ?faults⟩
  case newlyFaulted =>
    intro s t hs hstep ht
    obtain ⟨st, hst, rfl⟩ := failed_of_newly_faulted hs hstep ht
    rcases (Status.isRunFault_iff st).1 hst with rfl | rfl | rfl
    · exact .inl rfl
    · exact .inr (.inl rfl)
    · exact .inr (.inr rfl)
  case faults =>
    intro s t r _ _ hresp hr
    rw [runFaulted_of_response hresp, (Status.isRunFault_iff r.status).2 hr, Bool.or_true]

end Sys2Proof.Machine
end

section
/-! PROOFS. `ENC` and `RDCSR`, once per ending (R81 to R88, R101 to R103), special values and sentinels (R61, R62), and
the operands a command does not read (R50, R53). -/

namespace Sys2Proof.Machine

/-! ### What `ENC` does, case by case -/

section EncEndings
variable {s : State}

/-- `NotConfigured` (R82). -/
theorem execEnc_of_unconfigured (hk : s.codec = none) : execEnc s = raise .notConfigured s := by
  simp [execEnc, hk]

variable {k : Codec} (hk : s.codec = some k)
include hk

/-- A special value (R83). -/
theorem execEnc_of_special {b : Byte} (hb : sentinelOf (asF64 s.port.x0) = some b) :
    execEnc s = respondField k.fieldWidth (b.toNat * 2 ^ (8 * (k.fieldWidth.bytes - 1))) s := by
  simp [execEnc, valueOperand, hk, hb]

variable (hb : sentinelOf (asF64 s.port.x0) = none)
include hb

/-- `OutOfRange` (R84). -/
theorem execEnc_of_outside (hout : outsideRange k (asF64 s.port.x0) = true) : execEnc s = raise .outOfRange s := by
  simp [execEnc, valueOperand, hk, hb, hout]

variable (hin : outsideRange k (asF64 s.port.x0) = false)
include hin

/-- `CodeUnrepresentable` (R86). -/
theorem execEnc_of_unrepresentable (hd : toU64 (quantized k (asF64 s.port.x0)) = none) :
    execEnc s = raise .codeUnrepresentable s := by
  simp [execEnc, valueOperand, hk, hb, hin, hd]

/-- The code of a regular value (R87). -/
theorem execEnc_of_code {d : Nat} (hd : toU64 (quantized k (asF64 s.port.x0)) = some d) :
    execEnc s = respondField k.fieldWidth (d % 2 ^ (8 * k.fieldWidth.bytes)) s := by
  simp [execEnc, valueOperand, hk, hb, hin, hd]

end EncEndings

/-! ### Special values and sentinels -/

/-- A packed field in its register: the code modulo `2^(8n)`, moved to the top (R17, R40). -/
theorem alignLeft_bePack (d n : Nat) :
    alignLeft (bePack d n) = BitVec.ofNat 64 (d % 2 ^ (8 * n) * 2 ^ (64 - 8 * n)) := by
  rw [alignLeft, beUnpack_bePack, bePack_length]

/-- A sentinel in byte 0 of a field of any width, zeros below it, is the sentinel in the top byte (R61, R88). -/
theorem alignLeft_sentinel (b : Byte) (w : Width) :
    alignLeft (bePack (b.toNat * 2 ^ (8 * (w.bytes - 1))) w.bytes) = BitVec.ofNat 64 (b.toNat * 2 ^ 56) := by
  have hpos := bytes_pos w
  have hle := bytes_le w
  have hlt : b.toNat * 2 ^ (8 * (w.bytes - 1)) < 2 ^ (8 * w.bytes) := by
    rw [show 8 * w.bytes = 8 + 8 * (w.bytes - 1) by omega, Nat.pow_add]
    exact Nat.mul_lt_mul_of_pos_right b.isLt (Nat.two_pow_pos _)
  rw [alignLeft_bePack, Nat.mod_eq_of_lt hlt, Nat.mul_assoc, ← Nat.pow_add,
    show 8 * (w.bytes - 1) + (64 - 8 * w.bytes) = 56 by omega]

/-- `ENC` of a special value completes with its sentinel in the top byte of `RDATA` (R61, R83, R88). -/
theorem exec_enc_of_special {s : State} {k : Codec} (hk : s.codec = some k) {b : Byte}
    (hb : sentinelOf (asF64 s.port.x0) = some b) :
    exec .enc s =
      .next (deliver ⟨.ok, BitVec.ofNat 8 k.fieldWidth.bytes, BitVec.ofNat 64 (b.toNat * 2 ^ 56)⟩ s) := by
  rw [exec, execEnc_of_special hk hb, respondField, alignLeft_sentinel, respondOk_eq]

theorem asF64_infPattern (neg : Bool) : asF64 (fieldPattern neg 2047 0) = .inf neg := by
  rw [asF64_fieldPattern neg (by decide) (by decide), if_pos rfl, if_pos rfl]

theorem eq_nan_of_isNaN {f : F64} (h : isNaN f = true) : f = .nan := by
  cases f with
  | nan => rfl
  | inf neg => cases h
  | fin neg m => cases h

/-- Settles O35, by the sentinel of each special value. -/
theorem encOfSpecialValuesGivesTheSentinel : Obligations.EncOfSpecialValuesGivesTheSentinel := by
  intro s k hk done
  refine ⟨fun hx => ?posInf, fun hx => ?negInf, fun hx => ?nan⟩
  case posInf =>
    have hinf : asF64 s.port.x0 = .inf false := hx ▸ asF64_infPattern false
    exact exec_enc_of_special hk (b := 0xC8#8) (by rw [hinf]; rfl)
  case negInf =>
    have hinf : asF64 s.port.x0 = .inf true := hx ▸ asF64_infPattern true
    exact exec_enc_of_special hk (b := 0xE8#8) (by rw [hinf]; rfl)
  case nan => exact exec_enc_of_special hk (b := 0xD0#8) (by rw [eq_nan_of_isNaN hx]; rfl)

/-- Settles O40, by what each sentinel byte decodes to. -/
theorem decOfASentinelGivesTheSpecialValue : Obligations.DecOfASentinelGivesTheSpecialValue := by
  intro s k len hk hlen done
  have hdec {b : Byte} {p : Word} (hbyte : s.port.x0.toNat / 2 ^ 56 = b.toNat) (hp : sentinelBits b = some p) :
      exec (.dec len) s = done p :=
    execDec_of_sentinel hk hlen (((fieldByte_zero _ b).2 hbyte).symm ▸ hp)
  exact ⟨fun h => hdec (b := 0xC8#8) h rfl, fun h => hdec (b := 0xE8#8) h rfl,
    fun h => ⟨_, congrArg isNaN (asF64_nanPattern Config.decodeNan), hdec (b := 0xD0#8) h rfl⟩⟩

/-! ### What `RDCSR` does, case by case -/

/-- The indices that are no registers (R22, R103). -/
theorem csrOfIndex_eq_none {idx : BitVec 8} (h : 8 < idx.toNat) : csrOfIndex idx = none := by
  unfold csrOfIndex
  split
  case h_10 => rfl
  all_goals omega

section RdcsrEndings
variable {s : State} {idx : BitVec 8}

/-- `IllegalCommand` (R103). -/
theorem execRdcsr_of_undefined (hidx : csrOfIndex idx = none) : execRdcsr idx s = raise .illegalCommand s := by
  simp [execRdcsr, hidx]

variable {r : Csr} (hidx : csrOfIndex idx = some r)
include hidx

/-- `NotConfigured` (R110). -/
theorem execRdcsr_of_unset (hr : readCsr s r = none) : execRdcsr idx s = raise .notConfigured s := by
  simp [execRdcsr, hidx, hr]

/-- The register (R102). -/
theorem execRdcsr_of_set {v : Word} (hr : readCsr s r = some v) : execRdcsr idx s = respondOk 8#8 v s := by
  simp [execRdcsr, hidx, hr]

end RdcsrEndings

/-- Settles O48: the index is no register, for the decoder and for the instruction. -/
theorem rdcsrOfAnUndefinedIndexIsIllegal : Obligations.RdcsrOfAnUndefinedIndexIsIllegal :=
  fun _ _ hidx => ⟨(decode_packCommand _ _).trans (if_neg (Nat.not_le.2 hidx)),
    execRdcsr_of_undefined (csrOfIndex_eq_none hidx)⟩

/-! ### Operands that are not read -/

/-- The state with another command port. -/
def State.withPort (s : State) (p : Command) : State := { s with port := p }

@[simp] theorem withPort_codec (s : State) (p : Command) : (s.withPort p).codec = s.codec := rfl
@[simp] theorem withPort_port (s : State) (p : Command) : (s.withPort p).port = p := rfl

/-- The registers read the same whatever is on the port. -/
theorem readCsr_withPort (s : State) (p : Command) (r : Csr) : readCsr (s.withPort p) r = readCsr s r := rfl

/-- The command ends alike with the port `p`: the same next state, but for the port. -/
def EndsAlike (run : State → Outcome) (s : State) (p : Command) : Prop :=
  ∀ t, run s = .next t → run (s.withPort p) = .next (t.withPort p)

section EndsAlike
variable {s : State} {p : Command}

/-- `ENC` reads `x[0]` alone (R53). -/
theorem execEnc_endsAlike (hx : p.x0 = s.port.x0) : EndsAlike execEnc s p := by
  intro t ht
  have hx' : (s.withPort p).port.x0 = s.port.x0 := hx
  have hcodec := withPort_codec s p
  rcases execEnc_cases s with ⟨hk, h⟩ | ⟨k, hk, ⟨b, hb, h⟩ | ⟨hb, hout, h⟩ | ⟨hb, hin, hd, h⟩ | ⟨hb, hin, d, hd, h⟩⟩ <;>
    obtain rfl := Host.Outcome.next.inj (h.symm.trans ht)
  · exact execEnc_of_unconfigured (hcodec.trans hk)
  · exact execEnc_of_special (hcodec.trans hk) (hx' ▸ hb)
  · exact execEnc_of_outside (hcodec.trans hk) (hx' ▸ hb) (hx' ▸ hout)
  · exact execEnc_of_unrepresentable (hcodec.trans hk) (hx' ▸ hb) (hx' ▸ hin) (hx' ▸ hd)
  · exact execEnc_of_code (hcodec.trans hk) (hx' ▸ hb) (hx' ▸ hin) (hx' ▸ hd)

/-- `NotConfigured` (R92). -/
theorem execDec_of_unconfigured {len : BitVec 8} (hk : s.codec = none) : execDec len s = raise .notConfigured s := by
  simp [execDec, hk]

/-- `DEC` reads `x[0]` alone (R53). -/
theorem execDec_endsAlike (len : BitVec 8) (hx : p.x0 = s.port.x0) : EndsAlike (execDec len) s p := by
  intro t ht
  have hcodec := withPort_codec s p
  have hbyte : fieldByte (s.withPort p).port.x0 0 = fieldByte s.port.x0 0 := congrArg (fieldByte · 0) hx
  have hvalue (k : Codec) : decodedValue k (s.withPort p) = decodedValue k s := by
    simp only [decodedValue, fieldOperand, withPort_port, hx]
  rcases execDec_cases len s with
    ⟨hk, h⟩ | ⟨k, hk, ⟨hlen, h⟩ | ⟨hlen, ⟨v, hv, h⟩ | ⟨hv, ⟨hout, h⟩ | ⟨hin, h⟩⟩⟩⟩ <;>
    obtain rfl := Host.Outcome.next.inj (h.symm.trans ht)
  · exact execDec_of_unconfigured (hcodec.trans hk)
  · exact execDec_of_other_length (hcodec.trans hk) hlen
  · exact execDec_of_sentinel (hcodec.trans hk) hlen (hbyte ▸ hv)
  · exact execDec_of_outside (hcodec.trans hk) hlen (hbyte ▸ hv) (hvalue k ▸ hout)
  · rw [← hvalue]
    exact execDec_of_inside (hcodec.trans hk) hlen (hbyte ▸ hv) (hvalue k ▸ hin)

/-- `RDCSR` reads no operand (R53). -/
theorem execRdcsr_endsAlike (idx : BitVec 8) : EndsAlike (execRdcsr idx) s p := by
  intro t ht
  rcases execRdcsr_cases idx s with ⟨hidx, h⟩ | ⟨r, hidx, ⟨hr, h⟩ | ⟨v, hr, h⟩⟩ <;>
    obtain rfl := Host.Outcome.next.inj (h.symm.trans ht)
  · exact execRdcsr_of_undefined hidx
  · exact execRdcsr_of_unset hidx ((readCsr_withPort s p r).trans hr)
  · exact execRdcsr_of_set hidx ((readCsr_withPort s p r).trans hr)

end EndsAlike

/-- Settles O21: `ENC` and `DEC` end alike on every port with their `x[0]`, `RDCSR` on every port. -/
theorem unusedOperandsAreIgnored : Obligations.UnusedOperandsAreIgnored := by
  intro s t i y0 y1 y2 hcfg hcfgp hexec hx
  cases i with
  | cfg => exact absurd rfl hcfg
  | cfgp => exact absurd rfl hcfgp
  | enc => exact execEnc_endsAlike (p := ⟨s.port.cmd, y0, y1, y2⟩) (hx nofun) t hexec
  | dec len => exact execDec_endsAlike (p := ⟨s.port.cmd, y0, y1, y2⟩) len (hx nofun) t hexec
  | rdcsr idx => exact execRdcsr_endsAlike idx t hexec

end Sys2Proof.Machine
end

section
/-! PROOFS. The order of the binary64 data (R12) and the width a byte length selects (R75, R76). -/

namespace Sys2Proof

/-! ### Comparisons -/

/-- The order of finite data is that of their signed magnitudes (R12). -/
theorem fle_fin (s t : Bool) (m n : Nat) : fle (.fin s m) (.fin t n) = true ↔ signedMag s m ≤ signedMag t n := by
  simp [fle, flt, isNaN]

theorem fle_eq_false_of_flt {x y : F64} (h : flt y x = true) : fle x y = false := by simp [fle, h]

theorem flt_eq_false_of_fle {x y : F64} (h : fle x y = true) : flt y x = false :=
  Bool.eq_false_iff.2 fun hlt => by rw [fle_eq_false_of_flt hlt] at h; cases h

theorem feq_iff (x y : F64) : feq x y = true ↔ fle x y = true ∧ fle y x = true := by rw [feq, Bool.and_eq_true]

theorem flt_asymm {x y : F64} (h : flt x y = true) : flt y x = false := by
  match x, y with
  | .nan, _ | .inf _, .nan | .fin _ _, .nan => simp at h
  | .inf s, .inf t => cases s <;> simp_all [flt]
  | .inf s, .fin _ _ | .fin _ _, .inf s => simpa [flt] using h
  | .fin s m, .fin t n =>
    rw [flt, decide_eq_true_eq] at h
    exact decide_eq_false (Int.lt_asymm h)

/-- What is below a finite datum is below all that is above it. -/
theorem flt_of_flt_fin {x y : F64} {s : Bool} {m : Nat} (hx : flt x (.fin s m) = true)
    (hy : flt (.fin s m) y = true) : flt x y = true := by
  match x, y with
  | .nan, _ | _, .nan => simp at hx hy
  | .inf _, .inf _ => exact Bool.and_eq_true_iff.2 ⟨hx, hy⟩
  | .inf _, .fin _ _ => exact hx
  | .fin _ _, .inf _ => exact hy
  | .fin _ _, .fin _ _ =>
    rw [flt, decide_eq_true_eq] at hx hy
    exact decide_eq_true (Int.lt_trans hx hy)

/-! ### Comparisons with whole numbers -/

theorem ones_le_ones {m n : Nat} :
    signedMag false (m * F64.unit) ≤ signedMag false (n * F64.unit) ↔ m ≤ n := by
  rw [signedMag_false, signedMag_false, Int.ofNat_le, Nat.mul_le_mul_right_iff unit_pos]

theorem fle_ofNat_mono {x : F64} {m n : Nat} (hmn : m ≤ n) (h : fle x (F64.ofNat m) = true) :
    fle x (F64.ofNat n) = true := by
  cases x with
  | nan => cases h
  | inf s => exact h
  | fin s k =>
    rw [F64.ofNat, fle_fin] at h ⊢
    exact Int.le_trans h (ones_le_ones.2 hmn)

/-- A datum is at or above one whole number and at or below another only in their order. -/
theorem le_of_ofNat_fle {x : F64} {m n : Nat} (hm : fle (F64.ofNat m) x = true) (hn : fle x (F64.ofNat n) = true) :
    m ≤ n := by
  rw [F64.ofNat] at hm hn
  cases x with
  | nan => cases hn
  | inf s =>
    cases s
    · cases hn
    · cases hm
  | fin s k =>
    rw [fle_fin] at hm hn
    exact ones_le_ones.1 (Int.le_trans hm hn)

/-- A datum at or below a whole number equals no larger one. -/
theorem feq_ofNat_eq_false {x : F64} {m n : Nat} (hmn : m < n) (h : fle x (F64.ofNat m) = true) :
    feq x (F64.ofNat n) = false :=
  Bool.eq_false_iff.2 fun heq => Nat.not_le.2 hmn (le_of_ofNat_fle ((feq_iff _ _).1 heq).2 h)

/-- A datum equals at most one whole number. -/
theorem feq_ofNat_unique {x : F64} {m n : Nat} (hm : feq x (F64.ofNat m) = true) (hn : feq x (F64.ofNat n) = true) :
    m = n := by
  rw [feq_iff] at hm hn
  exact Nat.le_antisymm (le_of_ofNat_fle hm.2 hn.1) (le_of_ofNat_fle hn.2 hm.1)

/-- A datum not at most a whole number is not at most a smaller one. -/
theorem fle_ofNat_eq_false {x : F64} {m n : Nat} (hmn : m ≤ n) (h : fle x (F64.ofNat n) = false) :
    fle x (F64.ofNat m) = false :=
  Bool.eq_false_iff.2 fun hle => Bool.eq_false_iff.1 h (fle_ofNat_mono hmn hle)

end Sys2Proof

namespace Sys2Proof.Machine

/-! ### The width selection -/

section SelectWidth
variable {L : F64}

/-- A byte length of at most 2 is tested as it is (R75, R76). -/
theorem selectWidth_of_small (h2 : fle L (F64.ofNat 2) = true) :
    selectWidth L =
      if feq L (F64.ofNat 1) then .ok .w1
      else if feq L (F64.ofNat 2) then .ok .w2
      else .error .invalidFieldWidth := by
  have h4 : feq L (F64.ofNat 4) = false := feq_ofNat_eq_false (by decide) h2
  have h8 : feq L (F64.ofNat 8) = false := feq_ofNat_eq_false (by decide) h2
  rw [selectWidth, resolvedWidth, if_pos h2]
  simp only [widthOfF64, h4, h8]
  cases feq L (F64.ofNat 1) <;> cases feq L (F64.ofNat 2) <;> rfl

theorem widthOfF64_four : widthOfF64 (F64.ofNat 4) = some .w4 := by decide +kernel

theorem widthOfF64_eight : widthOfF64 (F64.ofNat 8) = some .w8 := by decide +kernel

/-- A byte length above 2 and at most 4 selects four bytes (R75). -/
theorem selectWidth_of_le_four (h2 : fle L (F64.ofNat 2) = false) (h4 : fle L (F64.ofNat 4) = true) :
    selectWidth L = .ok .w4 := by
  have hres : resolvedWidth L = some (F64.ofNat 4) := by simp [resolvedWidth, h2, h4]
  simp only [selectWidth, hres, widthOfF64_four]

/-- A byte length above 4 and at most 8 selects eight bytes (R75). -/
theorem selectWidth_of_le_eight (h4 : fle L (F64.ofNat 4) = false) (h8 : fle L (F64.ofNat 8) = true) :
    selectWidth L = .ok .w8 := by
  have h2 : fle L (F64.ofNat 2) = false := fle_ofNat_eq_false (by decide) h4
  have hres : resolvedWidth L = some (F64.ofNat 8) := by simp [resolvedWidth, h2, h4, h8]
  simp only [selectWidth, hres, widthOfF64_eight]

/-- A byte length not at most 8 selects nothing (R73, R75). -/
theorem selectWidth_of_not_le_eight (h8 : fle L (F64.ofNat 8) = false) :
    selectWidth L = .error .precisionUnrepresentable := by
  have h2 : fle L (F64.ofNat 2) = false := fle_ofNat_eq_false (by decide) h8
  have h4 : fle L (F64.ofNat 4) = false := fle_ofNat_eq_false (by decide) h8
  have hres : resolvedWidth L = none := by simp [resolvedWidth, h2, h4, h8]
  simp only [selectWidth, hres]

end SelectWidth

/-- Settles O24, by the four ranges of the byte length and, in the lowest, the two lengths that are widths. -/
theorem byteLengthSelectsTheWidth : Obligations.ByteLengthSelectsTheWidth := by
  intro L
  refine ⟨fun h1 => ?one, fun h2 => ?two, fun hle h1 h2 => ?other,
    fun hgt => selectWidth_of_le_four (fle_eq_false_of_flt hgt),
    fun hgt => selectWidth_of_le_eight (fle_eq_false_of_flt hgt), selectWidth_of_not_le_eight⟩
  case one =>
    have hle := fle_ofNat_mono (n := 2) (by decide) ((feq_iff _ _).1 h1).1
    rw [selectWidth_of_small hle, if_pos h1]
  case two =>
    have h1 : ¬ feq L (F64.ofNat 1) = true := fun h1 => absurd (feq_ofNat_unique h1 h2) (by decide)
    rw [selectWidth_of_small ((feq_iff _ _).1 h2).1, if_neg h1, if_pos h2]
  case other => rw [selectWidth_of_small hle, h1, h2]; rfl

end Sys2Proof.Machine
end

section
/-! PROOFS. `CFG` and `CFGP`, once per ending (R67, R69, R73), and the ratios without a logarithm (R77). -/

namespace Sys2Proof.Machine

/-! ### What `CFG` commits and rejects -/

/-- `ZERO_OFFSET` as R70 writes it: the offset of a range that straddles zero, and otherwise `+0.0`. -/
theorem zeroOffsetOf_eq (min max sF : F64) :
    zeroOffsetOf min max sF =
      if flt min (F64.ofNat 0) = true ∧ fgt max (F64.ofNat 0) = true then fsub (fmul sF min) (floor64 (fmul sF min))
      else F64.ofNat 0 := by
  simp only [zeroOffsetOf, Bool.and_eq_true]

/-- Settles O22: the configuration of the operands is that of R68, with the four draws that follow those of `s`. -/
theorem cfgCommitsEveryRegister : Obligations.CfgCommitsEveryRegister := by
  intro s w hw dB sF p
  refine ⟨_, Config.nanDraw s.draws, Config.nanDraw (s.draws + 1), Config.nanDraw (s.draws + 2),
    Config.nanDraw (s.draws + 3), exec_cfg_of_width hw, ?codec, rfl, rfl, rfl, rfl, rfl⟩
  case codec =>
    rw [deliver_codec, commit_codec, rangeScale, codecOf, zeroOffsetOf_eq]
    rfl

/-- Settles O23: a word that is the byte count of a width is 1, 2, 4 or 8. -/
theorem cfgRejectsEveryOtherWidth : Obligations.CfgRejectsEveryOtherWidth := by
  intro s h1 h2 h4 h8
  rcases execCfg_cases s with ⟨-, hexec⟩ | ⟨w, hw, -⟩
  · exact hexec
  · rw [widthOfWord_eq_some] at hw
    rw [hw] at h1 h2 h4 h8
    cases w
    case w1 => exact absurd rfl h1
    case w2 => exact absurd rfl h2
    case w4 => exact absurd rfl h4
    case w8 => exact absurd rfl h8

/-! ### What `CFGP` does, case by case -/

section CfgpEndings
variable {s : State}

theorem exec_cfgp_of_error {st : Status} (h : selectWidth (cfgpByteLen s) = .error st) :
    exec .cfgp s = raise st s := by
  rcases execCfgp_cases s with ⟨st', hst', hexec⟩ | ⟨w, hw, -⟩
  · obtain rfl : st = st' := Except.error.inj (h.symm.trans hst')
    exact hexec
  · rw [h] at hw; cases hw

theorem exec_cfgp_of_width {w : Width} (h : selectWidth (cfgpByteLen s) = .ok w) :
    exec .cfgp s = configure s.port.x0 s.port.x1 w s := by
  rcases execCfgp_cases s with ⟨st, hst, -⟩ | ⟨w', hw', hexec⟩
  · rw [h] at hst; cases hst
  · obtain rfl : w = w' := Except.ok.inj (h.symm.trans hw')
    exact hexec

end CfgpEndings

/-- Settles O25: both commands commit the configuration of the same bounds, width and draws. -/
theorem cfgpConfiguresAsCfgWithTheSelectedWidth : Obligations.CfgpConfiguresAsCfgWithTheSelectedWidth :=
  fun _ _ hsel => ⟨_, exec_cfgp_of_width hsel, exec_cfg_of_width rfl, rfl, rfl, rfl, rfl⟩

/-- Settles O26. -/
theorem cfgpReportsTheFailedSelection : Obligations.CfgpReportsTheFailedSelection :=
  fun _ _ hsel => ⟨selectWidth_error hsel, exec_cfgp_of_error hsel⟩

/-! ### Ratios with no finite logarithm (R77) -/

section ByteLen
variable {min max p : F64}

/-- A NaN logarithm passes through to the byte length (R11, R13). -/
theorem byteLenOf_of_log_nan (h : LOG2 (fdiv (fsub max min) p) = .nan) : byteLenOf min max p = .nan := by
  rw [byteLenOf, h]; rfl

/-- An infinite logarithm passes through to the byte length (R11, R13). -/
theorem byteLenOf_of_log_inf {s : Bool} (h : LOG2 (fdiv (fsub max min) p) = .inf s) :
    byteLenOf min max p = .inf s := by
  rw [byteLenOf, h, F64.ofNat, fadd_inf_fin, ceil64_inf, F64.ofNat, fdiv_inf_fin, ceil64_inf, Bool.xor_false]

end ByteLen

theorem selectWidth_nan : selectWidth .nan = .error .precisionUnrepresentable := rfl

theorem selectWidth_inf (s : Bool) :
    selectWidth (.inf s) = .error (if s then .invalidFieldWidth else .precisionUnrepresentable) := by
  cases s <;> rfl

/-- Settles O28: the logarithm of the ratio is a NaN or plus infinity, and so is the byte length. -/
theorem cfgpWithoutALogarithmIsUnrepresentable : Obligations.CfgpWithoutALogarithmIsUnrepresentable := by
  intro s r hr
  have hlog : LOG2 r = .nan ∨ LOG2 r = .inf false := by
    rcases hr with hnan | ⟨b, hinf⟩ | ⟨m, hm, hneg⟩
    · exact .inl (hnan ▸ LOG2_nan)
    · rw [hinf]
      cases b
      · exact .inr LOG2_inf
      · exact .inl LOG2_neg_inf
    · exact .inl (hneg ▸ LOG2_negative hm)
  refine exec_cfgp_of_error ?_
  rcases hlog with hnan | hinf
  · rw [cfgpByteLen, byteLenOf_of_log_nan hnan, selectWidth_nan]
  · rw [cfgpByteLen, byteLenOf_of_log_inf hinf, selectWidth_inf]; rfl

/-- Settles O29: the logarithm of a zero is minus infinity, and so is the byte length. -/
theorem cfgpOfZeroRatioIsInvalidWidth : Obligations.CfgpOfZeroRatioIsInvalidWidth := by
  intro s b hr
  refine exec_cfgp_of_error ?_
  rw [cfgpByteLen, byteLenOf_of_log_inf (hr ▸ LOG2_zero b), selectWidth_inf]; rfl

end Sys2Proof.Machine
end

section
/-! PROOFS. The constants of the degenerate ranges (R78): equal, reversed, NaN and infinitely far bounds. -/

namespace Sys2Proof

/-! ### The logarithm of a degenerate span -/

/-- Rounding a nonzero magnitude does not give zero: 1 is nearer (R11). -/
theorem roundMag_ne_zero {num : Nat} (h : num ≠ 0) : roundMag num 1 ≠ 0 := by
  intro hzero
  obtain ⟨-, hnear, -⟩ := roundMag_nearestEven num Nat.one_pos
  have hdist := hnear 1 rfl
  rw [hzero, abs_of_nonpos (by omega), abs_of_nonpos (by omega)] at hdist
  omega

/-- A negative value rounds to a negative datum or minus infinity, neither with a logarithm (R11, R14). -/
theorem LOG2_roundF64_negative {num : Nat} (h : num ≠ 0) : LOG2 (roundF64 true num 1) = .nan := by
  unfold roundF64
  dsimp only
  split
  · exact LOG2_neg_inf
  · exact LOG2_negative (roundMag_ne_zero h)

/-- Finite data that compare equal differ by a zero (R11, R12). -/
theorem fsub_of_feq {s t : Bool} {m n : Nat} (h : feq (.fin s m) (.fin t n) = true) :
    ∃ z, fsub (.fin t n) (.fin s m) = .fin z 0 := by
  rw [feq_iff, fle_fin, fle_fin] at h
  exact ⟨_, by rw [fsub_fin, if_pos (by omega)]⟩

/-- A span below zero has no logarithm (R14, R26). -/
theorem LOG2_fsub_of_flt {x y : F64} (h : flt x y = true) : LOG2 (fsub x y) = .nan := by
  match x, y with
  | .nan, _ | _, .nan => simp
  | .inf s, .inf t =>
    obtain ⟨rfl, ht⟩ := Bool.and_eq_true_iff.1 h
    obtain rfl : t = false := by simpa using ht
    exact LOG2_neg_inf
  | .inf s, .fin _ _ =>
    obtain rfl : s = true := h
    exact LOG2_neg_inf
  | .fin _ _, .inf t =>
    obtain rfl : t = false := by simpa [flt] using h
    exact LOG2_neg_inf
  | .fin s m, .fin t n =>
    rw [flt, decide_eq_true_eq] at h
    rw [fsub_fin, if_neg (by omega), decide_eq_true (by omega)]
    exact LOG2_roundF64_negative (by omega)

end Sys2Proof

namespace Sys2Proof.Machine

/-! ### The constants of special domain bits -/

theorem rangeScale_of_domainBits {a b : Word} {d : F64} (h : domainBitsOf (asF64 a) (asF64 b) = d) (w : Width)
    (n : Nat) : rangeScale a b w n = codecOf a b w d n := by rw [rangeScale, h]

theorem scaleFwdOf_inf (w : Width) (s : Bool) :
    scaleFwdOf w (.inf s) = if s then .inf false else .fin false 0 := by
  cases s <;> rfl

theorem scaleRevOf_inf (w : Width) (s : Bool) :
    scaleRevOf w (.inf s) = if s then .fin false 0 else .inf false := rfl

theorem scaleFwdOf_nan (w : Width) : scaleFwdOf w .nan = .nan := rfl

theorem scaleRevOf_nan (w : Width) : scaleRevOf w .nan = .nan := rfl

theorem bitsOf_zero (n : NanPattern) : bitsOf n (.fin false 0) = 0#64 := rfl

/-! ### Zero offsets (R30, R70) -/

/-- Bounds that do not stand in order do not straddle zero. -/
theorem zeroOffsetOf_of_not_flt {min max : F64} (h : flt min max = false) (sF : F64) :
    zeroOffsetOf min max sF = .fin false 0 := by
  rw [zeroOffsetOf_eq, if_neg, F64.ofNat_zero]
  rintro ⟨hmin, hmax⟩
  rw [F64.ofNat] at hmin hmax
  exact Bool.eq_false_iff.1 h (flt_of_flt_fin hmin hmax)

/-- A zero scale maps a finite lower bound to a zero, which is its own floor. -/
theorem zeroOffsetOf_fin_zero_scale (s : Bool) (m : Nat) (max : F64) :
    zeroOffsetOf (.fin s m) max (.fin false 0) = .fin false 0 := by
  have hp : fmul (.fin false 0) (.fin s m) = .fin s 0 := by
    rw [fmul_fin, Nat.zero_mul, roundF64_zero, Bool.false_xor]
  have hfloor : floor64 (.fin s 0) = .fin s 0 := by
    rw [floor64, ite_mul, wholeUp_of_dvd (Nat.dvd_zero _), wholeDown_of_dvd (Nat.dvd_zero _), ite_self]
  rw [zeroOffsetOf, hp, hfloor, fsub_fin, if_pos (Int.sub_self _), Bool.and_not_self, F64.ofNat_zero, ite_self]

/-- A zero scale times minus infinity is a NaN, and the offset of a range from minus infinity is one where the range
straddles zero. -/
theorem zeroOffsetOf_neg_inf_zero_scale (max : F64) :
    zeroOffsetOf (.inf true) max (.fin false 0) = if fgt max (F64.ofNat 0) then .nan else .fin false 0 := by
  have hp : fmul (.fin false 0) (.inf true) = .nan := rfl
  have hmin : flt (.inf true) (F64.ofNat 0) = true := rfl
  rw [zeroOffsetOf, hp, hmin, Bool.true_and, fsub_nan_left, F64.ofNat_zero]

/-! ### The rows of R78 -/

/-- Settles O30: the span is a zero, whose logarithm is minus infinity, and equal bounds do not straddle zero. -/
theorem equalBoundsGiveInfiniteScale : Obligations.EqualBoundsGiveInfiniteScale := by
  intro a b w n s t m m' ha hb heq k
  have hoffset := zeroOffsetOf_of_not_flt (flt_eq_false_of_fle ((feq_iff _ _).1 heq).2)
  rw [ha, hb] at heq
  obtain ⟨z, hspan⟩ := fsub_of_feq heq
  have hdomain : domainBitsOf (asF64 a) (asF64 b) = .inf true := by
    rw [domainBitsOf, ha, hb, hspan, LOG2_zero, ceil64_inf]
  have hk : k = codecOf a b w (.inf true) n := rangeScale_of_domainBits hdomain w n
  rw [hk]
  refine ⟨rfl, rfl, rfl, ?_⟩
  rw [codecOf, hoffset, bitsOf_zero]

/-- Settles O31: the span has no logarithm, the NaN reaches both scales, and the bounds are not in order. -/
theorem reversedOrNanBoundsGiveNanScales : Obligations.ReversedOrNanBoundsGiveNanScales := by
  intro a b w n h k
  have horder : flt (asF64 a) (asF64 b) = false ∧ LOG2 (fsub (asF64 b) (asF64 a)) = .nan := by
    rcases h with hgt | ha | hb
    · exact ⟨flt_asymm hgt, LOG2_fsub_of_flt hgt⟩
    · rw [eq_nan_of_isNaN ha, fsub_nan_right]; exact ⟨flt_nan_left _, LOG2_nan⟩
    · rw [eq_nan_of_isNaN hb, fsub_nan_left]; exact ⟨flt_nan_right _, LOG2_nan⟩
  obtain ⟨hnlt, hlog⟩ := horder
  have hdomain : domainBitsOf (asF64 a) (asF64 b) = .nan := by rw [domainBitsOf, hlog, ceil64_nan]
  refine ⟨?_, ?_, ?_, ?_⟩
  · rw [rangeScale_domainBits, hdomain]; rfl
  · rw [rangeScale_scaleFwd, hdomain, scaleFwdOf_nan]; rfl
  · rw [rangeScale_scaleRev, hdomain, scaleRevOf_nan]; rfl
  · have hk : k = codecOf a b w .nan n := rangeScale_of_domainBits hdomain w n
    rw [hk, codecOf, zeroOffsetOf_of_not_flt hnlt, bitsOf_zero]

/-- Settles O32: the logarithm of the span is plus infinity, so the forward scale is zero, and the offset is that of a
zero scale. -/
theorem infiniteSpanGivesZeroScale : Obligations.InfiniteSpanGivesZeroScale := by
  intro a b w n hspan k
  have hdomain : domainBitsOf (asF64 a) (asF64 b) = .inf false := by
    rw [domainBitsOf, hspan, LOG2_inf, ceil64_inf]
  have hk : k = codecOf a b w (.inf false) n := rangeScale_of_domainBits hdomain w n
  have hoffset : k.zeroOffset =
      bitsOf (Config.nanDraw (n + 3)) (zeroOffsetOf (asF64 a) (asF64 b) (.fin false 0)) := by
    rw [hk, codecOf, scaleFwdOf_inf]; rfl
  refine ⟨by rw [hk]; rfl, by rw [hk]; rfl, by rw [hk]; rfl, fun s m ha => ?finite, fun ha hb => ?straddling,
    fun ha hb => ?below⟩ <;> rw [hoffset, ha]
  case finite => rw [zeroOffsetOf_fin_zero_scale, bitsOf_zero]
  case straddling => rw [zeroOffsetOf_neg_inf_zero_scale, if_pos hb]; exact congrArg isNaN (asF64_nanPattern _)
  case below => rw [zeroOffsetOf_neg_inf_zero_scale, if_neg (Bool.eq_false_iff.1 hb), bitsOf_zero]

end Sys2Proof.Machine
end

section
/-! PROOFS. `ENC` once per ending outside its special values (R82 to R88), and special values through `ENC` and `DEC`
(R83, R95). -/

namespace Sys2Proof

/-- A negative datum is no unsigned integer (R18). -/
theorem toU64_of_negative {x : F64} (h : flt x (F64.ofNat 0) = true) : toU64 x = none := by
  cases x with
  | nan => rfl
  | inf s => rfl
  | fin neg m =>
    rw [F64.ofNat_zero, flt, decide_eq_true_eq, signedMag_false] at h
    cases neg with
    | false => rw [signedMag_false] at h; omega
    | true =>
      rw [signedMag_true] at h
      exact if_pos (.inl ⟨rfl, by omega⟩)

/-- A datum of at least 2^64 is above every unsigned 64-bit integer (R18). -/
theorem toU64_of_large {x : F64} (h : fge x (F64.ofNat (2 ^ 64)) = true) : toU64 x = none := by
  cases x with
  | nan => rfl
  | inf s => rfl
  | fin neg m =>
    rw [fge, F64.ofNat, fle_fin, signedMag_false] at h
    have hle : 2 ^ 64 * F64.unit ≤ m := by
      cases neg with
      | false => rw [signedMag_false] at h; omega
      | true => rw [signedMag_true] at h; omega
    exact if_pos (.inr (.inl hle))

end Sys2Proof

namespace Sys2Proof.Machine

/-! ### Before a configuration -/

/-- The indices 1 to 8 are those of the registers a configuration sets (R22). -/
theorem csrOfIndex_of_configuration {idx : BitVec 8} (h1 : 1 ≤ idx.toNat) (h8 : idx.toNat ≤ 8) :
    ∃ r, csrOfIndex idx = some r ∧ r ≠ .valid := by
  unfold csrOfIndex
  interval_cases idx.toNat <;> exact ⟨_, rfl, nofun⟩

/-- Settles O34: each of the three commands looks for a configuration first. -/
theorem unconfiguredBlockRefuses : Obligations.UnconfiguredBlockRefuses := by
  rintro s i hk (rfl | ⟨len, rfl⟩ | ⟨idx, rfl, h1, h8⟩)
  · exact execEnc_of_unconfigured hk
  · exact execDec_of_unconfigured hk
  · obtain ⟨r, hidx, hr⟩ := csrOfIndex_of_configuration h1 h8
    exact execRdcsr_of_unset hidx ((readCsr_none hk r).trans (if_neg hr))

/-! ### Finite values -/

theorem eq_inf_of_isInf {f : F64} (h : isInf f = true) : ∃ neg, f = .inf neg := by
  cases f with
  | nan => cases h
  | inf neg => exact ⟨neg, rfl⟩
  | fin neg m => cases h

theorem sentinelOf_of_fin {f : F64} {neg : Bool} {m : Nat} (h : f = .fin neg m) : sentinelOf f = none := by
  rw [h]; rfl

/-- Inside the bounds is neither below nor above them (R84, R98). -/
theorem outsideRange_eq_false {k : Codec} {v : F64} (ha : flt v (asF64 k.a) = false)
    (hb : fgt v (asF64 k.b) = false) : outsideRange k v = false := by
  rw [outsideRange, ha, hb, Bool.false_or]

/-- `ENC` of a code completes with the code modulo `2^(8W)` in the top bits of `RDATA` (R87, R88). -/
theorem respondField_code (w : Width) (d : Nat) (s : State) :
    respondField w (d % 2 ^ (8 * w.bytes)) s =
      .next (deliver ⟨.ok, BitVec.ofNat 8 w.bytes,
        BitVec.ofNat 64 (d % 2 ^ (8 * w.bytes) * 2 ^ (64 - 8 * w.bytes))⟩ s) := by
  rw [respondField, alignLeft_bePack, Nat.mod_mod, respondOk_eq]

/-- Settles O36: a finite value is not special, and it is outside the bounds on one side. -/
theorem encOutsideTheRangeFails : Obligations.EncOutsideTheRangeFails := by
  intro s k neg m hk hv hout
  exact execEnc_of_outside hk (sentinelOf_of_fin hv) ((Bool.or_eq_true _ _).mpr hout)

/-- Settles O37: the value takes the last ending of `ENC`. -/
theorem encOfARegularValueGivesItsCode : Obligations.EncOfARegularValueGivesItsCode := by
  intro s k neg m d hk hv ha hb hd
  exact (execEnc_of_code hk (sentinelOf_of_fin hv) (outsideRange_eq_false ha hb) hd).trans (respondField_code _ _ _)

/-- Settles O38: none of the four kinds of datum converts to a 64-bit integer. -/
theorem encOfAnUnrepresentableCodeFails : Obligations.EncOfAnUnrepresentableCodeFails := by
  intro s k neg m hk hv ha hb rf hrf
  have hnone : toU64 rf = none := by
    rcases hrf with hnan | hinf | hneg | hlarge
    · rw [eq_nan_of_isNaN hnan]; rfl
    · obtain ⟨t, ht⟩ := eq_inf_of_isInf hinf
      rw [ht]; rfl
    · exact toU64_of_negative hneg
    · exact toU64_of_large hlarge
  exact execEnc_of_unrepresentable hk (sentinelOf_of_fin hv) (outsideRange_eq_false ha hb) hnone

/-! ### Special values there and back -/

/-- The sentinel of a special value decodes to that value, a NaN to a NaN (R61, R95). -/
theorem sentinelBits_sentinelOf {f : F64} (h : isNaN f = true ∨ isInf f = true) :
    ∃ b p, sentinelOf f = some b ∧ sentinelBits b = some p ∧ asF64 p = f := by
  cases f with
  | nan => exact ⟨0xD0#8, _, rfl, rfl, asF64_nanPattern Config.decodeNan⟩
  | inf neg =>
    cases neg with
    | false => exact ⟨0xC8#8, _, rfl, rfl, asF64_infPattern false⟩
    | true => exact ⟨0xE8#8, _, rfl, rfl, asF64_infPattern true⟩
  | fin neg m => rcases h with h | h <;> cases h

/-- Byte 0 of a register that holds a byte in its top bits. -/
theorem fieldByte_zero_ofNat (b : Byte) : fieldByte (BitVec.ofNat 64 (b.toNat * 2 ^ 56)) 0 = b := by
  have hb := b.isLt
  rw [fieldByte_zero, BitVec.toNat_ofNat]
  omega

/-- The length `ENC` gives is the one `DEC` asks for (R88, R93). -/
theorem bytes_toNat (w : Width) : (BitVec.ofNat 8 w.bytes).toNat = w.bytes := by cases w <;> rfl

/-- `DEC` of a sentinel in the top bits, presented with the length of the configuration, completes with the sentinel's
value (R95). -/
theorem exec_dec_of_sentinel {s : State} {k : Codec} {b : Byte} {p : Word} (hk : s.codec = some k)
    (hx : s.port.x0 = BitVec.ofNat 64 (b.toNat * 2 ^ 56)) (hp : sentinelBits b = some p) :
    exec (.dec (BitVec.ofNat 8 k.fieldWidth.bytes)) s = respondOk 8#8 p s :=
  execDec_of_sentinel hk (bytes_toNat _) (by rw [hx, fieldByte_zero_ofNat, hp])

/-- Settles O44: `ENC` leaves the sentinel in byte 0, and `DEC` of the field's own length reads it there. -/
theorem specialValuesSurviveARoundTrip : Obligations.SpecialValuesSurviveARoundTrip := by
  intro s t rlen rdata hvalid hspecial hexec hresp
  obtain ⟨k, hk⟩ := Option.isSome_iff_exists.1 hvalid
  obtain ⟨b, p, hb, hp, hvalue⟩ := sentinelBits_sentinelOf hspecial
  obtain rfl := Host.Outcome.next.inj ((exec_enc_of_special hk hb).symm.trans hexec)
  rw [deliver_responses, List.append_cancel_left_eq, List.cons.injEq, Response.mk.injEq] at hresp
  obtain ⟨⟨-, rfl, rfl⟩, -⟩ := hresp
  exact ⟨_, p, exec_dec_of_sentinel hk rfl hp, rfl, hvalue⟩

end Sys2Proof.Machine
end

section
/-! PROOFS. The round trip over a range from zero (R85, R90, R97): scaling by powers of two is exact but for a value far
below one, so `ENC` divides by the step and drops the remainder, and `DEC` multiplies back. -/

namespace Sys2Proof

/-! ### Exact sums and products -/

/-- A quotient that is a magnitude binary64 holds is that datum (R11). -/
theorem roundF64_mul_self {neg : Bool} {m den : Nat} (hden : 0 < den) (hm : (F64.fin neg m).isBinary64) :
    roundF64 neg (m * den) den = .fin neg m := by
  obtain ⟨hlim, hfit⟩ := hm
  rw [roundF64, roundMag_mul_self hden hfit]
  exact if_neg (Nat.not_le.2 hlim)

/-- Adding a zero of either sign to a datum without a minus sign is exact (R11). -/
theorem fadd_zero_right {m : Nat} (hm : (F64.fin false m).isBinary64) (t : Bool) :
    fadd (.fin false m) (.fin t 0) = .fin false m := by
  have hsum : signedMag false m + signedMag t 0 = m := by cases t <;> simp [signedMag]
  rw [fadd_fin, hsum]
  split
  case isTrue h => rw [Int.natCast_eq_zero.1 h, Bool.false_and]
  case isFalse =>
    rw [decide_eq_false (by omega), Int.natAbs_natCast]
    simpa using roundF64_mul_self Nat.one_pos hm

/-- Subtracting a zero of either sign from a datum without a minus sign is exact (R11). -/
theorem fsub_zero_right {m : Nat} (hm : (F64.fin false m).isBinary64) (t : Bool) :
    fsub (.fin false m) (.fin t 0) = .fin false m := fadd_zero_right hm (!t)

/-! ### Scaling by a power of two -/

/-- Rounding a quotient does not pass a magnitude binary64 holds (R11). -/
theorem roundMag_le_of_le_mul {num den m : Nat} (hden : 0 < den) (hle : num ≤ m * den)
    (hfit : m % 2 ^ (m.log2 - 52) = 0) : roundMag num den ≤ m := by
  obtain ⟨-, hnear, -⟩ := roundMag_nearestEven num hden
  have hdist := hnear m hfit
  by_contra! hlt
  have hmul : m * den < roundMag num den * den := Nat.mul_lt_mul_of_pos_right hlt hden
  zify at hle hmul
  rw [abs_of_nonneg (by omega), abs_of_nonneg (by omega)] at hdist
  omega

/-- A magnitude binary64 holds is a significand of 53 bits times a power of two (R10). -/
theorem exists_significand {m : Nat} (hfit : m % 2 ^ (m.log2 - 52) = 0) : ∃ c k, c < 2 ^ 53 ∧ m = c * 2 ^ k := by
  rcases Nat.lt_or_ge m (2 ^ 52) with hm | hm
  · exact ⟨m, 0, by omega, by rw [Nat.pow_zero, Nat.mul_one]⟩
  · exact ⟨_, _, (significand_bounds hm).2, (Nat.div_mul_cancel (Nat.dvd_of_mod_eq_zero hfit)).symm⟩

theorem pow_53_lt_unit : 2 ^ 53 < F64.unit := by
  obtain ⟨u, hu⟩ : ∃ u, u = 1074 := ⟨_, rfl⟩
  rw [unit_eq_pow hu]
  exact Nat.pow_lt_pow_right (by decide) (by omega)

/-- A product with a power of two is exact, or it and its rounding are below one: the product of the significands keeps
its 53 bits unless the unit in the last place falls below 2^-1074 (R11). -/
theorem roundMag_scaled {m : Nat} (hfit : m % 2 ^ (m.log2 - 52) = 0) (p : Nat) :
    (∃ x, x % 2 ^ (x.log2 - 52) = 0 ∧ 2 ^ p * m = x * F64.unit) ∨
    (2 ^ p * m < F64.unit * F64.unit ∧ roundMag (2 ^ p * m) F64.unit < F64.unit) := by
  obtain ⟨c, k, hc, rfl⟩ := exists_significand hfit
  have hprod : 2 ^ p * (c * 2 ^ k) = c * 2 ^ (k + p) := by rw [Nat.pow_add]; ring
  obtain ⟨u, hu⟩ : ∃ u, u = 1074 := ⟨_, rfl⟩
  have hunit := unit_eq_pow hu
  have hsmall := pow_53_lt_unit
  rw [hprod]
  rcases Nat.le_total u (k + p) with hup | hup
  case inl =>
    refine .inl ⟨c * 2 ^ (k + p - u), significand_fits hc.le _, ?_⟩
    rw [hunit, Nat.mul_assoc, ← Nat.pow_add, Nat.sub_add_cancel hup]
  case inr =>
    have hle : c * 2 ^ (k + p) ≤ 2 ^ 53 * F64.unit :=
      Nat.mul_le_mul hc.le (hunit ▸ Nat.pow_le_pow_right (by decide) hup)
    have hround := roundMag_le_of_le_mul unit_pos hle (by simpa using significand_fits (q := 2 ^ 53) le_rfl 0)
    exact .inr ⟨hle.trans_lt (Nat.mul_lt_mul_of_pos_right hsmall unit_pos), hround.trans_lt hsmall⟩

/-- A magnitude with fewer than 2^53 whole ones is far below 2^1024. -/
theorem lt_limit_of_wholeDown_lt {x : Nat} (h : wholeDown x < 2 ^ 53) : x < F64.limit := by
  rw [wholeDown, Nat.div_lt_iff_lt_mul unit_pos] at h
  obtain ⟨u, hu⟩ : ∃ u, u = 1074 := ⟨_, rfl⟩
  rw [unit_eq_pow hu, ← Nat.pow_add] at h
  exact lt_limit_of_lt_pow h (by omega)

/-- The product of a datum with a power of two has the whole part of the exact product where that is below 2^53: the
rounding of a product below one stays below one (R11, R13). -/
theorem wholeDown_fmul_pow {m p : Nat} (hfit : m % 2 ^ (m.log2 - 52) = 0)
    (hd : m * 2 ^ p / F64.unit / F64.unit < 2 ^ 53) :
    ∃ x, fmul (.fin false (2 ^ p)) (.fin false m) = .fin false x ∧
      wholeDown x = m * 2 ^ p / F64.unit / F64.unit := by
  rw [Nat.mul_comm m] at hd ⊢
  rw [fmul_fin, Bool.xor_self]
  rcases roundMag_scaled hfit p with ⟨x, hx, hprod⟩ | ⟨hprod, hround⟩
  case inl =>
    rw [hprod, Nat.mul_div_cancel _ unit_pos] at hd ⊢
    exact ⟨x, roundF64_mul_self unit_pos ⟨lt_limit_of_wholeDown_lt hd, hx⟩, rfl⟩
  case inr =>
    have hzero : wholeDown (roundMag (2 ^ p * m) F64.unit) = 0 := Nat.div_eq_of_lt hround
    refine ⟨_, if_neg (Nat.not_le.2 (lt_limit_of_wholeDown_lt (hzero ▸ Nat.two_pow_pos 53))), ?_⟩
    rw [hzero, Nat.div_div_eq_div_mul, Nat.div_eq_of_lt hprod]

/-- Reciprocal powers of two make the code a whole number of steps. -/
theorem code_eq_div {p q : Nat} (hpq : p + q = 2148) (m : Nat) : m * 2 ^ p / F64.unit / F64.unit = m / 2 ^ q := by
  have hunits : F64.unit * F64.unit = 2 ^ q * 2 ^ p := by
    obtain ⟨u, hu⟩ : ∃ u, u = 1074 := ⟨_, rfl⟩
    rw [unit_eq_pow hu, ← Nat.pow_add, ← Nat.pow_add]
    congr 1
    omega
  rw [Nat.div_div_eq_div_mul, hunits, Nat.mul_div_mul_right _ _ (Nat.two_pow_pos p)]

/-- A multiple of a power of two by fewer than 2^53 is exact (R11). -/
theorem fmul_pow_ofNat {q d : Nat} (hd : d < 2 ^ 53) (hlim : d * 2 ^ q < F64.limit) :
    fmul (.fin false (2 ^ q)) (F64.ofNat d) = .fin false (d * 2 ^ q) := by
  rw [F64.ofNat, fmul_fin, Bool.xor_self, ← Nat.mul_assoc, Nat.mul_comm (2 ^ q)]
  exact roundF64_mul_self unit_pos ⟨hlim, significand_fits hd.le q⟩

/-! ### Order -/

/-- A bound not below a value is not below a smaller one. -/
theorem flt_fin_of_le {x : F64} {m n : Nat} (hmn : m ≤ n) (h : flt x (.fin false n) = false) :
    flt x (.fin false m) = false := by
  cases x with
  | nan => rfl
  | inf s => exact h
  | fin s l =>
    rw [flt, decide_eq_false_iff_not, signedMag_false] at h ⊢
    omega

/-- No datum without a minus sign is below zero. -/
theorem flt_zero_eq_false (m : Nat) : flt (.fin false m) (.fin false 0) = false := by
  rw [flt, decide_eq_false_iff_not, signedMag_false, signedMag_false]
  omega

end Sys2Proof

namespace Sys2Proof.Machine

/-! ### The field of a code -/

/-- `DEC` reads back the code of a field (R88, R94). -/
theorem beUnpack_fieldBytes_ofNat {w : Width} {d : Nat} :
    beUnpack (fieldBytes (BitVec.ofNat 64 (d % 2 ^ (8 * w.bytes) * 2 ^ (64 - 8 * w.bytes))) w.bytes) =
      d % 2 ^ (8 * w.bytes) := by
  have hback := fieldBytes_alignLeft (bs := bePack d w.bytes) (by rw [bePack_length]; exact bytes_le w)
  rw [bePack_length, alignLeft_bePack] at hback
  rw [hback, beUnpack_bePack, beUnpack_bePack, Nat.mod_mod]

/-- A code whose byte 0 is below the first sentinel fits the field (R62). -/
theorem code_lt_of_no_sentinel {w : Width} {d : Nat} (hd : d < 0xC8 * 2 ^ (8 * w.bytes - 8)) :
    d < 2 ^ (8 * w.bytes) := by
  have hpos := bytes_pos w
  calc d < 0xC8 * 2 ^ (8 * w.bytes - 8) := hd
    _ ≤ 2 ^ 8 * 2 ^ (8 * w.bytes - 8) := Nat.mul_le_mul_right _ (by decide)
    _ = 2 ^ (8 * w.bytes) := by rw [← Nat.pow_add]; congr 1; omega

/-- A code whose byte 0 is below the first sentinel is decoded as a regular field (R62, R95). -/
theorem sentinelBits_of_code {w : Width} {d : Nat} (hd : d < 0xC8 * 2 ^ (8 * w.bytes - 8)) :
    sentinelBits (fieldByte (BitVec.ofNat 64 (d * 2 ^ (64 - 8 * w.bytes))) 0) = none := by
  have hpos := bytes_pos w
  have hle := bytes_le w
  have htop : d * 2 ^ (64 - 8 * w.bytes) < 0xC8 * 2 ^ 56 :=
    calc d * 2 ^ (64 - 8 * w.bytes) < 0xC8 * 2 ^ (8 * w.bytes - 8) * 2 ^ (64 - 8 * w.bytes) :=
          Nat.mul_lt_mul_of_pos_right hd (Nat.two_pow_pos _)
      _ = 0xC8 * 2 ^ 56 := by rw [Nat.mul_assoc, ← Nat.pow_add]; congr 2; omega
  have hbyte {b : Byte} (hb : 0xC8 ≤ b.toNat) :
      fieldByte (BitVec.ofNat 64 (d * 2 ^ (64 - 8 * w.bytes))) 0 ≠ b := by
    rw [Ne, fieldByte_zero, BitVec.toNat_ofNat]
    omega
  rw [sentinelBits, if_neg (hbyte (by decide)), if_neg (hbyte (by decide)), if_neg (hbyte (by decide))]

/-! ### The codec of a range from zero -/

section FromZero
variable {k : Codec} {m p q : Nat} (ha : asF64 k.a = .fin false 0) (hoffset : asF64 k.zeroOffset = .fin false 0)
include ha hoffset

/-- `ENC` takes the whole number of steps in a value (R85). -/
theorem quantized_from_zero (hfwd : asF64 k.scaleFwd = .fin false (2 ^ p)) (hpq : p + q = 2148)
    (hm : (F64.fin false m).isBinary64) (hd : m / 2 ^ q < 2 ^ 53) :
    quantized k (.fin false m) = F64.ofNat (m / 2 ^ q) := by
  rw [← code_eq_div hpq] at hd ⊢
  obtain ⟨x, hx, hwhole⟩ := wholeDown_fmul_pow hm.2 hd
  have hxb : (F64.fin false x).isBinary64 := hx ▸ fmul_isBinary64 _ _
  rw [quantized, ha, hoffset, hfwd, fsub_zero_right hm, hx, fadd_zero_right hxb, ← hwhole]
  rfl

/-- `DEC` takes a whole number of steps (R97). -/
theorem dequantized_from_zero {d : Nat} (hrev : asF64 k.scaleRev = .fin false (2 ^ q)) (hd : d < 2 ^ 53)
    (hlim : d * 2 ^ q < F64.limit) : dequantized k d = .fin false (d * 2 ^ q) := by
  have hsub : fsub (.fin false (d * F64.unit)) (.fin false 0) = F64.ofNat d :=
    fsub_zero_right (ones_isBinary64 false hd.le) false
  rw [dequantized, ha, hoffset, hrev, smallIntegersConvertExactly d hd.le, hsub, fmul_pow_ofNat hd hlim,
    fadd_zero_right ⟨hlim, significand_fits hd.le q⟩]

end FromZero

/-- An unsigned 64-bit integer converts back (R16, R18). -/
theorem toU64_ofNat {d : Nat} (hd : d < 2 ^ 64) : toU64 (F64.ofNat d) = some d :=
  (toU64_fin_eq_some false _ d).2 ⟨hd, rfl, nofun⟩

/-- `DEC` of the field of a regular code completes with the code's value where that is within the bounds (R94, R97,
R99). -/
theorem exec_dec_of_code {s : State} {k : Codec} {d : Nat} (hk : s.codec = some k)
    (hx : s.port.x0 = BitVec.ofNat 64 (d % 2 ^ (8 * k.fieldWidth.bytes) * 2 ^ (64 - 8 * k.fieldWidth.bytes)))
    (hd : d < 0xC8 * 2 ^ (8 * k.fieldWidth.bytes - 8)) (hin : outsideRange k (dequantized k d) = false) :
    exec (.dec (BitVec.ofNat 8 k.fieldWidth.bytes)) s = respondReal (dequantized k d) s := by
  have hmod := Nat.mod_eq_of_lt (code_lt_of_no_sentinel hd)
  have hbyte : sentinelBits (fieldByte s.port.x0 0) = none := by rw [hx, hmod]; exact sentinelBits_of_code hd
  have hvalue : decodedValue k s = dequantized k d := by
    rw [decodedValue, fieldOperand, hx, beUnpack_fieldBytes_ofNat, hmod]
  rw [← hvalue] at hin ⊢
  exact execDec_of_inside hk (bytes_toNat _) hbyte hin

/-- Settles O45: the code is `m / 2^q` and the decoded magnitude `m / 2^q * 2^q`, both exact. -/
theorem roundTripFromZeroLosesLessThanOneStep : Obligations.RoundTripFromZeroLosesLessThanOneStep := by
  intro s t k m p q d hk ha hoffset hfwd hrev hpq hv hb hd hd53 hfirst hexec
  have hbound : asF64 k.a = .fin false 0 := congrArg asF64 ha
  have hzero : asF64 k.zeroOffset = .fin false 0 := congrArg asF64 hoffset
  have hm : (F64.fin false m).isBinary64 := hv ▸ asF64_isBinary64 _
  obtain rfl : d = m / 2 ^ q := hd.trans (code_eq_div hpq m)
  have hle : m / 2 ^ q * 2 ^ q ≤ m := Nat.div_mul_le_self m _
  have hlt : m < m / 2 ^ q * 2 ^ q + 2 ^ q := Nat.lt_div_mul_add (Nat.two_pow_pos q)
  have hlim : m / 2 ^ q * 2 ^ q < F64.limit := hle.trans_lt hm.1
  have hcode : toU64 (quantized k (asF64 s.port.x0)) = some (m / 2 ^ q) := by
    rw [hv, quantized_from_zero hbound hzero hfwd hpq hm hd53]
    exact toU64_ofNat (by omega)
  have henc := encOfARegularValueGivesItsCode s k false m _ hk hv (by rw [hv, hbound]; exact flt_zero_eq_false m) hb
    hcode
  obtain rfl := Host.Outcome.next.inj (henc.symm.trans hexec)
  have hdequant := dequantized_from_zero hbound hzero hrev hd53 hlim
  have hin : outsideRange k (dequantized k (m / 2 ^ q)) = false := by
    rw [hdequant]
    exact outsideRange_eq_false (by rw [hbound]; exact flt_zero_eq_false _) (flt_fin_of_le hle (hv ▸ hb))
  refine ⟨_, _, _, _, rfl, exec_dec_of_code hk rfl hfirst hin, rfl, ?_, hle, hlt⟩
  rw [hdequant]
  exact asF64_bitsOf (f := .fin false _) ⟨hlim, significand_fits hd53.le q⟩ _

end Sys2Proof.Machine
end

section
/-! PROOFS. `DEC` of a regular field: its code is the top of `x[0]` (R94, R96), and the value of that code completes the
command or is out of range (R97 to R99); another length fails first (R93). -/

namespace Sys2Proof.Machine

/-- Settles O39: the length is compared before the field is looked at. -/
theorem decOfAnotherLengthFails : Obligations.DecOfAnotherLengthFails :=
  fun _ _ _ hk hlen => execDec_of_other_length hk hlen

/-! ### The code of a field -/

/-- The bytes of a left-aligned field are those of the number in the top `8n` bits of its register (R17, R94). -/
theorem fieldBytes_eq_bePack (x : BitVec 64) {n : Nat} (hn : n ≤ 8) :
    fieldBytes x n = bePack (x.toNat / 2 ^ (64 - 8 * n)) n := by
  refine List.map_congr_left fun i hi => ?_
  have hi' := List.mem_range.1 hi
  have hbits : 56 - 8 * i = (64 - 8 * n) + 8 * (n - 1 - i) := by omega
  apply BitVec.eq_of_toNat_eq
  rw [fieldByte, BitVec.extractLsb'_toNat, Nat.shiftRight_eq_div_pow, hbits, Nat.pow_add, ← Nat.div_div_eq_div_mul,
    BitVec.toNat_ofNat, Nat.mod_mod]

/-- The code of a field is the number in the top `8n` bits of its register (R94, R96). -/
theorem beUnpack_fieldBytes (x : BitVec 64) {n : Nat} (hn : n ≤ 8) :
    beUnpack (fieldBytes x n) = x.toNat / 2 ^ (64 - 8 * n) := by
  have hlt : x.toNat / 2 ^ (64 - 8 * n) < 2 ^ (8 * n) := by
    rw [Nat.div_lt_iff_lt_mul (Nat.two_pow_pos _), ← Nat.pow_add, show 8 * n + (64 - 8 * n) = 64 by omega]
    exact x.isLt
  rw [fieldBytes_eq_bePack x hn, beUnpack_bePack, Nat.mod_eq_of_lt hlt]

/-- The value decoded is that of the number in the top `8W` bits of `x[0]` (R94, R97). -/
theorem decodedValue_eq (k : Codec) (s : State) :
    decodedValue k s = dequantized k (s.port.x0.toNat / 2 ^ (64 - 8 * k.fieldWidth.bytes)) :=
  congrArg (dequantized k) (beUnpack_fieldBytes _ (bytes_le _))

/-- A field whose top byte is none of the three sentinels is regular (R62, R95). -/
theorem sentinelBits_eq_none {x : BitVec 64} (hPosInf : x.toNat / 2 ^ 56 ≠ 0xC8) (hNegInf : x.toNat / 2 ^ 56 ≠ 0xE8)
    (hNan : x.toNat / 2 ^ 56 ≠ 0xD0) : sentinelBits (fieldByte x 0) = none := by
  rcases sentinelBits_cases (fieldByte x 0) with ⟨hb, -⟩ | ⟨hb, -⟩ | ⟨hb, -⟩ | ⟨-, -, -, hnone⟩
  · exact absurd ((fieldByte_zero _ _).1 hb) hPosInf
  · exact absurd ((fieldByte_zero _ _).1 hb) hNegInf
  · exact absurd ((fieldByte_zero _ _).1 hb) hNan
  · exact hnone

/-! ### A regular field -/

/-- A value below `A` or above `B` is outside the range (R98). -/
theorem outsideRange_eq_true {k : Codec} {v : F64} (h : flt v (asF64 k.a) = true ∨ fgt v (asF64 k.b) = true) :
    outsideRange k v = true := by
  rwa [outsideRange, Bool.or_eq_true]

/-- Settles O41: the value is inside the range, so `DEC` delivers it and draws a NaN pattern. -/
theorem decOfARegularFieldGivesItsValue : Obligations.DecOfARegularFieldGivesItsValue := by
  intro s k len hk hlen hPosInf hNegInf hNan l v hlow hhigh
  have hv : decodedValue k s = v := decodedValue_eq k s
  have hend : exec (.dec len) s = respondReal v s :=
    hv ▸ execDec_of_inside hk hlen (sentinelBits_eq_none hPosInf hNegInf hNan) (hv ▸ outsideRange_eq_false hlow hhigh)
  rw [respondReal_eq] at hend
  exact ⟨_, _, hend, rfl, rfl, rfl, rfl, rfl, rfl⟩

/-- Settles O42: the value is outside the range. -/
theorem decOutsideTheRangeFails : Obligations.DecOutsideTheRangeFails := by
  intro s k len hk hlen hPosInf hNegInf hNan l v hout
  have hv : decodedValue k s = v := decodedValue_eq k s
  exact execDec_of_outside hk hlen (sentinelBits_eq_none hPosInf hNegInf hNan) (hv ▸ outsideRange_eq_true hout)

end Sys2Proof.Machine
end

section
/-! PROOFS. `RDCSR`: the read of `VALID` and of each register of a configuration (R101, R102). -/

namespace Sys2Proof.Machine

/-- `VALID` reads in every state, configured or not (R101). -/
theorem readCsr_valid (s : State) : readCsr s .valid = some (if s.valid then 1#64 else 0#64) := by
  cases hk : s.codec with
  | none => rw [readCsr_none hk, State.valid, hk]; rfl
  | some k => rw [readCsr_some hk, State.valid, hk]; rfl

/-- Settles O46: index 0 is `VALID`, which holds a value in every state. -/
theorem rdcsrOfValidAlwaysReads : Obligations.RdcsrOfValidAlwaysReads :=
  fun s => execRdcsr_of_set (idx := 0#8) (r := .valid) rfl (readCsr_valid s)

/-- Settles O47: each index is that of its register, which `RDCSR` delivers on a configured block. -/
theorem rdcsrReadsTheRegisterOfItsIndex : Obligations.RdcsrReadsTheRegisterOfItsIndex := by
  intro s k hk done
  have hread {idx : BitVec 8} {r : Csr} (hidx : csrOfIndex idx = some r) : exec (.rdcsr idx) s = done (k.read r) :=
    exec_rdcsr_configured hk hidx
  exact ⟨hread (r := .a) rfl, hread (r := .b) rfl, hread (r := .fieldWidth) rfl, hread (r := .domainBits) rfl,
    hread (r := .codeBits) rfl, hread (r := .scaleFwd) rfl, hread (r := .scaleRev) rfl, hread (r := .zeroOffset) rfl⟩

end Sys2Proof.Machine
end

section
/-! PROOFS. Runs of any length: an idle block stays as it is (R118), and no step takes back a response, so a fault of the
run is never cleared (R104, R126). -/

namespace Sys2Proof.Machine

/-! ### Runs, for every machine -/

section Run
variable {M : Host.Core} {s t : M.State}

/-- A run of one step more that meets no stop is a step and then the rest of the run. -/
theorem run_succ_eq_next {n : Nat} : M.run (n + 1) s = .next t ↔ ∃ u, M.step s = .next u ∧ M.run n u = .next t := by
  rw [Host.Core.run]
  cases M.step s with
  | next u => simp
  | fault r => simp
  | refused r => simp

/-- A state that steps to itself is where every run from it ends. -/
theorem run_of_step_self (h : M.step s = .next s) (n : Nat) : M.run n s = .next s := by
  induction n with
  | zero => rfl
  | succ n ih => exact run_succ_eq_next.2 ⟨s, h, ih⟩

/-- What every step keeps, every run keeps. -/
theorem run_keeps {P : M.State → Prop} (hstep : ∀ {s t}, P s → M.step s = .next t → P t) {n : Nat} (hs : P s)
    (hrun : M.run n s = .next t) : P t := by
  induction n generalizing s with
  | zero => exact Host.Outcome.next.inj hrun ▸ hs
  | succ n ih =>
    obtain ⟨u, hu, hrest⟩ := run_succ_eq_next.1 hrun
    exact ih (hstep hs hu) hrest

end Run

/-! ### The idle block -/

/-- A host with no move left does nothing (R118; log 12). -/
theorem hostMove_of_no_move {s : State} (h : s.host = []) : hostMove s = s := by rw [hostMove, h]

theorem step_of_idle {s : State} (hpresented : s.presented = false) (hline : s.resetLine = false) :
    step s = .next (hostMove s) := by
  rcases step_cases s with ⟨hline', -⟩ | ⟨-, hpresented', -⟩ | ⟨-, -, hstep⟩
  · rw [hline] at hline'; cases hline'
  · rw [hpresented] at hpresented'; cases hpresented'
  · exact hstep

/-- Settles O10: the step of an idle block is the host's move, and the host has none. -/
theorem idleBlockStaysAsItIs : Obligations.IdleBlockStaysAsItIs := by
  intro n s hpresented hline hhost
  have hself : step s = .next s := by rw [step_of_idle hpresented hline, hostMove_of_no_move hhost]
  exact run_of_step_self hself n

/-! ### Faults of the run -/

/-- A step keeps the responses delivered and adds at most the one of a presented command (R126). -/
theorem step_extends_responses {s t : State} (hstep : step s = .next t) :
    ∃ later, t.responses = s.responses ++ later := by
  by_cases hready : s.ready
  · obtain ⟨t', hstep', ⟨r, hresp⟩, -⟩ := step_answered hready
    obtain rfl := Host.Outcome.next.inj (hstep'.symm.trans hstep)
    exact ⟨[r], hresp⟩
  · exact ⟨[], by rw [step_responses_of_not_ready hready hstep, List.append_nil]⟩

/-- More responses leave a faulted run faulted (R104). -/
theorem runFaulted_of_extended {s t : State} {later : List Response} (hs : s.runFaulted = true)
    (h : t.responses = s.responses ++ later) : t.runFaulted = true := by
  rw [State.runFaulted] at hs
  rw [State.runFaulted, h, List.any_append, hs, Bool.true_or]

theorem step_keeps_runFaulted {s t : State} (hs : s.runFaulted = true) (hstep : step s = .next t) :
    t.runFaulted = true := by
  obtain ⟨later, hresp⟩ := step_extends_responses hstep
  exact runFaulted_of_extended hs hresp

/-- Settles O14, by induction on the number of steps: the response that faulted the run stays delivered. -/
theorem runFaultsAreNeverCleared : Obligations.RunFaultsAreNeverCleared :=
  fun _ _ _ hs hrun => run_keeps (M := Sys2Proof.core) step_keeps_runFaulted hs hrun

end Sys2Proof.Machine
end

section
/-! PROOFS. Every step has a next state, so no run stops (R125, R130); runs keep the responses delivered (R126); and a
move of the host's list is presented by one step and over after the next (R121, R126; logs 8 and 9). -/

namespace Sys2Proof.Machine

/-! ### Runs, for every machine -/

section Run
variable {M : Host.Core}

/-- A machine whose every step has a next state runs on for any number of steps. -/
theorem run_has_next (hstep : ∀ s, ∃ t, M.step s = .next t) (n : Nat) (s : M.State) : ∃ t, M.run n s = .next t := by
  induction n generalizing s with
  | zero => exact ⟨s, rfl⟩
  | succ n ih =>
    obtain ⟨u, hu⟩ := hstep s
    obtain ⟨t, hrest⟩ := ih u
    exact ⟨t, run_succ_eq_next.2 ⟨u, hu, hrest⟩⟩

theorem run_two {s u t : M.State} (hfirst : M.step s = .next u) (hsecond : M.step u = .next t) :
    M.run 2 s = .next t :=
  run_succ_eq_next.2 ⟨u, hfirst, run_succ_eq_next.2 ⟨t, hsecond, rfl⟩⟩

end Run

/-! ### Runs of the block -/

theorem step_of_reset {s : State} (h : s.resetLine = true) : step s = .next (applyReset s) := by
  rcases step_cases s with ⟨-, hstep⟩ | ⟨hline, -⟩ | ⟨hline, -⟩
  · exact hstep
  all_goals rw [h] at hline; cases hline

/-- No step stops the block: reset, an answered command and the host's move each give a next state (R104, R130). -/
theorem step_has_next (s : State) : ∃ t, step s = .next t := by
  rcases step_cases s with ⟨-, hreset⟩ | ⟨hline, hpresented, -⟩ | ⟨-, -, hhost⟩
  · exact ⟨_, hreset⟩
  · obtain ⟨t, hstep, -⟩ := step_answered ⟨hpresented, hline⟩
    exact ⟨t, hstep⟩
  · exact ⟨_, hhost⟩

/-- Settles O6, by induction on the number of steps. -/
theorem noRunStops : Obligations.NoRunStops := run_has_next (M := Sys2Proof.core) step_has_next

/-- The responses of `s` are delivered in `t` too, unchanged and before all others (R126). -/
def ExtendsResponses (s t : State) : Prop := ∃ later, t.responses = s.responses ++ later

theorem extendsResponses_refl (s : State) : ExtendsResponses s s := ⟨[], (List.append_nil _).symm⟩

/-- A step only appends to the responses, whatever it starts from (R126). -/
theorem step_keeps_extendsResponses {s t u : State} (h : ExtendsResponses s t) (hstep : step t = .next u) :
    ExtendsResponses s u := by
  obtain ⟨later, hlater⟩ := h
  obtain ⟨more, hmore⟩ := step_extends_responses hstep
  exact ⟨later ++ more, by rw [hmore, hlater, List.append_assoc]⟩

/-- Settles O16: every step keeps the responses of the run's first state. -/
theorem deliveredResponsesAreNeverChanged : Obligations.DeliveredResponsesAreNeverChanged :=
  fun _ s _ hrun => run_keeps (M := Sys2Proof.core) step_keeps_extendsResponses (extendsResponses_refl s) hrun

/-! ### The host's list -/

section HostList
variable {s : State} {c : Command} {rest : List HostMove}

/-- A listed command is put on the port (R126; log 8). -/
theorem hostMove_of_command (h : s.host = .command c :: rest) :
    hostMove s = presentCommand c { s with host := rest } := by rw [hostMove, h]

/-- A listed command that reset cuts short is put on the port with the reset input asserted (R121; log 8). -/
theorem hostMove_of_commandCut (h : s.host = .commandCut c :: rest) :
    hostMove s = presentCommand c { s with host := rest, resetLine := true } := by rw [hostMove, h]

end HostList

/-- Settles O8: the first step presents the command with the reset input asserted, so the second resets the block before
the command is looked at. -/
theorem resetCutsACommandShort : Obligations.ResetCutsACommandShort := by
  intro s c rest hpresented hline hhost
  have hpresent : step s = .next (presentCommand c { s with host := rest, resetLine := true }) := by
    rw [step_of_idle hpresented hline, hostMove_of_commandCut hhost]
  have hreset := step_of_reset (s := presentCommand c { s with host := rest, resetLine := true }) rfl
  rw [run_two (M := Sys2Proof.core) hpresent hreset, hpresented, hline]
  rfl

/-- Settles O9: the first step presents the command, and the second is that of a ready block, which answers it. -/
theorem hostCommandRunsInTwoSteps : Obligations.HostCommandRunsInTwoSteps := by
  intro s c rest hpresented hline hhost
  have hpresent : step s = .next (presentCommand c { s with host := rest }) := by
    rw [step_of_idle hpresented hline, hostMove_of_command hhost]
  have hready : (presentCommand c { s with host := rest }).ready := ⟨rfl, hline⟩
  obtain ⟨t, hstep, ⟨r, hresponse⟩, hpresented', hport, hline', hhost'⟩ := step_answered hready
  exact ⟨t, r, run_two (M := Sys2Proof.core) hpresent hstep, hstep, hresponse, hhost', hport, hpresented',
    hline'.trans hline⟩

end Sys2Proof.Machine
end
